-- ==== Sys2Proof/Word.lean ====
section
/-! DEFINITION. The machine's words and bytes, and vectors built from an index function.
Every register of the block is 64 bits wide (00_scope R9); the buffers hold bytes. -/

namespace Sys2Proof

/-- A register, matrix entry or accumulator: 64 bits, unsigned, `+` modulo 2^64 (R10). -/
abbrev Word := BitVec 64

/-- One byte of a block, of the salt or of the digest. -/
abbrev Byte := BitVec 8

/-- The eight 64-bit words of CHAIN, ACC, SALT_IN, DATA_IN (R20). -/
abbrev Words8 := Vector Word 8

/-- A 64-byte block, R17's sense of the word. -/
abbrev Block := Vector Byte 64

/-- The vector whose entry at each index is given by `f`. -/
def tabulate {α : Type} (n : Nat) (f : Fin n → α) : Vector α n :=
  ⟨⟨List.ofFn f⟩, by simp⟩

@[simp] theorem getElem_tabulate {α : Type} {n : Nat} (f : Fin n → α) (i : Nat) (h : i < n) :
    (tabulate n f)[i] = f ⟨i, h⟩ := by
  simp [tabulate]

end Sys2Proof
end

