-- ==== Sys2Proof/Config.lean ====
section
/-! DEFINITION. What the spec leaves to a parameter (00_scope R8) and the free values (20_memory R73).
None of the constants below has a body: a claim about the machine is a claim for every value of them. -/

namespace Sys2Proof

/-- The two parameters an engine's result depends on (R8): MATRIX and SALT_FINAL_BLOCKS.
Every operation takes them as an argument, so that claims are stated for all values. -/
structure Params where
  /-- MATRIX(row, column), 8 rows by 1024 columns of 64-bit words (R7, R63). -/
  matrix : Fin 8 → Fin 1024 → Word
  /-- SALT_FINAL_BLOCKS: whether the salt is XORed into FINAL's padding blocks (R8, D9). -/
  saltFinalBlocks : Bool

namespace Config

/-- MATRIX of this machine: its contents are in no source (R8, 91 N3). -/
opaque matrix : Fin 8 → Fin 1024 → Word

/-- SALT_FINAL_BLOCKS of this machine: both values are admitted (R8, D9; DESIGN CHOICE, log 9). Every
engine of a platform has this one value (DESIGN CHOICE, log 15). -/
opaque saltFinalBlocks : Bool

/-- The parameters the machine's instructions run with. -/
def params : Params := ⟨matrix, saltFinalBlocks⟩

/-- One less than NUM_ENGINES, which is at least 1 (R8). -/
opaque extraEngines : Nat

/-- NUM_ENGINES (R8, D32). -/
def numEngines : Nat := extraEngines + 1

/-- ENGINE_BASE of engine `i`: the platform's choice (R8, R61, R77). -/
opaque engineBase : Nat → Nat

/-! The free values below take two numbers: the engine's stream of draws and the count of draws made from
it (log 6). Nothing relates the draws of two engines, or two draws of one engine. -/

/-- The LSTATE field of an unspecified read (R73, I7): any of the field's four values (log 7). -/
opaque freeLState : Nat → Nat → BitVec 2

/-- The SALTED field of an unspecified read (R73, I7). -/
opaque freeSalted : Nat → Nat → Bool

/-- The PLEN field of an unspecified read (R73, I7). -/
opaque freePlen : Nat → Nat → BitVec 6

/-- An unspecified read of BITCNT_LO, BITCNT_HI or NCOMP (R73, I7). -/
opaque freeWord : Nat → Nat → Word

/-- What the host's read finds when its address is outside the window, so that the read does not reach
the block (R61; log 8). -/
opaque freeBusRead : Nat → Nat → Word

end Config
end Sys2Proof
end

