-- ==== Sys2Proof/Syntax.lean ====
section
/-! DEFINITION. The commands: one constructor per row of spec/opcode_table.json (30_encoding R93). -/

namespace Sys2Proof

/-- A command of the block (R93). -/
inductive Instr where
  /-- NOP, OP = 0x0 (R142). -/
  | nop
  /-- INIT, OP = 0x1 (R143). -/
  | init
  /-- INIT_SALTED, OP = 0x2 (R144). -/
  | initSalted
  /-- UPDATE, OP = 0x3, with its 7-bit LEN field (R91, R152). -/
  | update (len : BitVec 7)
  /-- FINAL, OP = 0x4 (R154). -/
  | final
  deriving DecidableEq, Repr

end Sys2Proof
end

