-- ==== Sys2Proof/WellFormed.lean ====
section
/-! DEFINITION. Which commands are legal as written: LEN of UPDATE is 0..64 (30_encoding R91, R93).
A word with LEN 65..127 still decodes as UPDATE and raises BAD_LEN (R94). -/

namespace Sys2Proof

/-- LEN is legal for UPDATE: 0 to 64 bytes (R91, R152). -/
def Instr.lenLegal (len : BitVec 7) : Bool := decide (len.toNat ≤ 64)

/-- The command is one the spec lets a host issue without a length error (R91, R93). -/
def Instr.wellFormed : Instr → Bool
  | .nop => true
  | .init => true
  | .initSalted => true
  | .update len => Instr.lenLegal len
  | .final => true

end Sys2Proof
end

