-- ==== Sys2Proof/Decode.lean ====
section
/-! DEFINITION. Decoding a 64-bit command word, total, rejecting by name, and the encoder
(30_encoding R90 to R94, R97). Every rejection is the cause of an ILLEGAL_CMD error (R212). -/

namespace Sys2Proof

/-- Why a command word is illegal (R94, R212); the block itself reports one code for all (log 18). -/
inductive DecodeError where
  /-- OP is 0x5..0xF. -/
  | reservedOpcode
  /-- A bit of RSV0, bits 7:4, is set. -/
  | rsv0Set
  /-- A bit of RSV1, bits 63:15, is set. -/
  | rsv1Set
  /-- LEN is not 0 and OP is not UPDATE's. -/
  | strayLen
  deriving DecidableEq, Repr

/-- OP, bits 3:0 (R91). -/
def opField (w : Word) : BitVec 4 := w.extractLsb' 0 4

/-- RSV0, bits 7:4 (R91). -/
def rsv0Field (w : Word) : BitVec 4 := w.extractLsb' 4 4

/-- LEN, bits 14:8 (R91). -/
def lenField (w : Word) : BitVec 7 := w.extractLsb' 8 7

/-- RSV1, bits 63:15 (R91). -/
def rsv1Field (w : Word) : BitVec 49 := w.extractLsb' 15 49

/-- The command an opcode names, with its LEN operand (R93); none for the reserved opcodes. -/
def instrOfFields (op : BitVec 4) (len : BitVec 7) : Option Instr :=
  if op = 0x0#4 then some .nop
  else if op = 0x1#4 then some .init
  else if op = 0x2#4 then some .initSalted
  else if op = 0x3#4 then some (.update len)
  else if op = 0x4#4 then some .final
  else none

/-- Decode a command word (R91, R93, R94). UPDATE with LEN 65..127 decodes (R94). -/
def decode (w : Word) : Except DecodeError Instr :=
  match instrOfFields (opField w) (lenField w) with
  | none => .error .reservedOpcode
  | some i =>
    if rsv0Field w ≠ 0 then .error .rsv0Set
    else if rsv1Field w ≠ 0 then .error .rsv1Set
    else if opField w ≠ 0x3#4 ∧ lenField w ≠ 0 then .error .strayLen
    else .ok i

/-- The opcode of a command (R93). -/
def opcode : Instr → BitVec 4
  | .nop => 0x0#4
  | .init => 0x1#4
  | .initSalted => 0x2#4
  | .update _ => 0x3#4
  | .final => 0x4#4

/-- The LEN field of a command: UPDATE's byte count, 0 for every other (R91, R93). -/
def lenOf : Instr → BitVec 7
  | .nop => 0
  | .init => 0
  | .initSalted => 0
  | .update len => len
  | .final => 0

/-- The command word of a command: RSV1 ++ LEN ++ RSV0 ++ OP (R91, R93). -/
def encode (i : Instr) : Word :=
  0#49 ++ lenOf i ++ 0#4 ++ opcode i

/-- The instruction the decoder reads from an opcode-table word of `nbits` bits; a command is one
64-bit word, so the bits above `nbits` are 0 (R90). -/
def decodeTableWord (nbits w : Nat) : Option Instr :=
  (decode (BitVec.ofNat 64 (w % 2 ^ nbits))).toOption

end Sys2Proof
end

