-- ==== Sys2Proof/Machine/State.lean ====
section
/-! DEFINITION. The machine's state: R20's table, field by field, and the model's own fields that hold
the host's side and the choices the spec leaves open. Reset values: 70_reset R240. -/

namespace Sys2Proof.Machine

/-- LSTATE, the lifecycle (R30); the value 3 is never held (R43; DEDUCED, log 20). -/
inductive LState where
  /-- 0: before any init. -/
  | created
  /-- 1: between an init and FINAL. -/
  | accumulating
  /-- 2: the digest is readable. -/
  | finalized
  deriving DecidableEq, Repr

/-- ERRCODE's values (30_encoding R95); 0x6..0xF are never produced (log 20). -/
inductive ErrCode where
  /-- 0x0: no error recorded. -/
  | noError
  /-- 0x1 (R212). -/
  | illegalCmd
  /-- 0x2 (R213). -/
  | invalidState
  /-- 0x3 (R215). -/
  | badLen
  /-- 0x4 (R216). -/
  | busyWrite
  /-- 0x5 (R217). -/
  | access
  deriving DecidableEq, Repr

/-- Which agent acts (00_scope R16). -/
inductive Turn where
  /-- The host performs its next line. -/
  | host
  /-- The engine takes its completion step, if it is enabled (R141). -/
  | engine
  /-- The platform asserts reset (R240). -/
  | reset
  deriving DecidableEq, Repr

/-- A line of a host program (30_encoding R96), with the access width written out (R67): `wr` and
`rd` of R96 are 64 bits wide. The pseudo-operation `wait` (R98) is a line of its own because it
loops, and so is the assignment `read_digest` makes after each of its reads (R101); the others expand
to lines (Machine/HostProgram.lean). -/
inductive HostLine where
  /-- `wr OFF, VAL` at a width in bits. -/
  | wr (width off : Nat) (val : Word)
  /-- `rd OFF -> NAME` at a width in bits. -/
  | rd (width off : Nat) (name : String)
  /-- `expect NAME == VAL`. -/
  | expect (name : String) (val : Word)
  /-- `wait`: repeat `rd STATUS -> s` until bit 3 of what it read is 0 (R98). -/
  | wait
  /-- `OUT[8k..8k+7] <- LE64enc(NAME)`, for the host's byte array `out` (R101). -/
  | lay (out : String) (k : Fin 8) (name : String)
  deriving DecidableEq, Repr

/-- Why the machine stops. Errors of the block are NOT among these: they are next states (R210). -/
inductive Fault where
  /-- Raised by the engine's turn when BUSY = 1 and LATCH_OP holds 0x5..0xF, which R141 says it
  never does: the spec gives no effect. Safe: no run from reset reaches it (log 4). -/
  | latchUndefined (op : BitVec 4)
  /-- Raised by a host program's `expect` whose assertion is false: "A false assertion makes the
  program fail" (R96). Safe: the run stops (log 5). -/
  | expectFailed (name : String) (found expected : Word)
  /-- Raised by a host program's `expect` of a name, or an assignment to an array from a name, that no
  `rd` line and no `wait` has bound: the spec gives such a line no meaning. Safe: the run stops (log 5). -/
  | nameNotRead (name : String)
  deriving DecidableEq, Repr

/-- Why the model has no meaning to offer. -/
inductive Refusal where
  /-- Raised only by exec's arm of an instruction without a meaning (none is left). Safe. -/
  | notModelled (mnemonic : String)
  deriving DecidableEq, Repr

/-- The complete state of one engine (R20), then the model's own fields. -/
@[ext]
structure State where
  /-- CHAIN[0..7] (R23). -/
  chain : Words8
  /-- ACC[0..7] (R24). -/
  acc : Words8
  /-- COL (R25). -/
  col : BitVec 10
  /-- SALT[0..63] (R26). -/
  salt : Block
  /-- SALTED (R27). -/
  salted : Bool
  /-- BITCNT_LO (R28). -/
  bitcntLo : Word
  /-- BITCNT_HI (R28). -/
  bitcntHi : Word
  /-- BUF[0..63] (R29). -/
  buf : Block
  /-- PLEN (R29). -/
  plen : BitVec 6
  /-- LSTATE (R30). -/
  lstate : LState
  /-- BUSY (R31). -/
  busy : Bool
  /-- LATCH_OP (R31). -/
  latchOp : BitVec 4
  /-- LATCH_LEN (R31). -/
  latchLen : BitVec 7
  /-- DONE (R32). -/
  done : Bool
  /-- ERR (R33). -/
  err : Bool
  /-- ERRCODE (R33). -/
  errcode : ErrCode
  /-- DONE_IE (R34). -/
  doneIe : Bool
  /-- ERR_IE (R34). -/
  errIe : Bool
  /-- NCOMP (R35). -/
  ncomp : Word
  /-- SALT_IN[0..7] (R36). -/
  saltIn : Words8
  /-- DATA_IN[0..7] (R37). -/
  dataIn : Words8
  /-- The model's own: which stream of free values this engine draws from, so that no two engines of a
  platform share their draws (R73; log 6). -/
  stream : Nat
  /-- The model's own: how many unspecified reads have been drawn (R73; log 6). -/
  draws : Nat
  /-- The model's own: the lines the host has still to perform (R96; log 11). -/
  prog : List HostLine
  /-- The model's own: what the host's `rd` and `wait` lines have read, newest first (R96, R98; log 11). -/
  reads : List (String × Word)
  /-- The model's own: the host's 64-byte arrays that digests are read to, newest first (R101; log 11). -/
  arrays : List (String × Block)
  /-- The model's own: which agent moves next, first to last (R71; log 1). -/
  turns : List Turn
  deriving DecidableEq, Repr

/-- Eight zero words. -/
def zeroWords : Words8 := Vector.replicate 8 0

/-- A block of 64 zero bytes. -/
def zeroBlock : Block := Vector.replicate 64 0

/-- The machine right after reset (R240); the model's own fields are 0 or empty (DESIGN CHOICE, log 6 and
log 11). -/
def State.reset : State where
  chain := zeroWords
  acc := zeroWords
  col := 0
  salt := zeroBlock
  salted := false
  bitcntLo := 0
  bitcntHi := 0
  buf := zeroBlock
  plen := 0
  lstate := .created
  busy := false
  latchOp := 0
  latchLen := 0
  done := false
  err := false
  errcode := .noError
  doneIe := false
  errIe := false
  ncomp := 0
  saltIn := zeroWords
  dataIn := zeroWords
  stream := 0
  draws := 0
  prog := []
  reads := []
  arrays := []
  turns := []

end Sys2Proof.Machine
end

