-- ==== Sys2Proof/Machine/Flags.lean ====
section
/-! DEFINITION. The flags and the registers assembled from them: STATUS (10_state R38, R183), CTRL
(R39, R185), ID (R41), the irq output (R42). The block has no condition codes (R45). -/

namespace Sys2Proof.Machine

/-- A flag as a 64-bit word with bit 0. -/
def flagWord (b : Bool) : Word := (BitVec.ofBool b).setWidth 64

/-- The encoding of LSTATE (R30). -/
def LState.code : LState → BitVec 2
  | .created => 0
  | .accumulating => 1
  | .finalized => 2

/-- The encoding of ERRCODE (30_encoding R95). -/
def ErrCode.code : ErrCode → BitVec 4
  | .noError => 0x0
  | .illegalCmd => 0x1
  | .invalidState => 0x2
  | .badLen => 0x3
  | .busyWrite => 0x4
  | .access => 0x5

/-- STATUS's layout, from its fields (R38, R183), LSTATE as its two bits; reserved bits are 0. -/
def statusWord (plen : BitVec 6) (code : ErrCode) (err done busy salted : Bool) (lstate : BitVec 2) : Word :=
  plen.setWidth 64 <<< 16 ||| code.code.setWidth 64 <<< 8 ||| flagWord err <<< 5 ||| flagWord done <<< 4
    ||| flagWord busy <<< 3 ||| flagWord salted <<< 2 ||| lstate.setWidth 64

/-- What CTRL reads (R39, R185). -/
def ctrlWord (s : State) : Word := flagWord s.errIe <<< 1 ||| flagWord s.doneIe

/-- What ID reads (R41, R191). -/
def idWord (p : Params) : Word := 0x0000_0004_0008_4001#64 ||| flagWord p.saltFinalBlocks <<< 40

/-- The output line irq, a level that holds no state of its own (R42, R222). -/
def irq (s : State) : Bool := (s.done && s.doneIe) || (s.err && s.errIe)

/-- The end of a completion step: `BUSY <- 0; DONE <- 1` (R141). -/
def State.finish (s : State) : State := { s with busy := false, done := true }

end Sys2Proof.Machine
end

