-- ==== Sys2Proof/Machine/Operands.lean ====
section
/-! DEFINITION. Operand assembly and byte order: the little-endian helpers (00_scope R14), the byte
lanes of the staging and digest registers (20_memory R64), the bytes of UPDATE and INIT_SALTED
(30_encoding R92), and byte-range writes into a block (00_scope R11). -/

namespace Sys2Proof.Machine

/-- Byte `j` of a word: bits 8j+7..8j (R14). -/
def wordByte (w : Word) (j : Nat) : Byte := w.extractLsb' (8 * j) 8

/-- LE64enc: the eight bytes of a word, least significant first (R14). -/
def le64enc (w : Word) : List Byte := (List.range 8).map (wordByte w)

/-- LE64dec: the word `Σ B[j] · 2^(8j)` of the first eight bytes of a list (R14). -/
def le64dec (bs : List Byte) : Word :=
  ((List.range 8).map fun j => (bs.getD j 0).setWidth 64 <<< (8 * j)).sum

/-- LEW(B, k): word `k` of a block read little-endian (R14). -/
def lew (b : Block) (k : Fin 8) : Word := le64dec ((b.toList.drop (8 * k.val)).take 8)

/-- The 64 bytes `LE64enc(ws[0]) ++ ... ++ LE64enc(ws[7])`: byte `j` is byte `j mod 8` of word
`j div 8` (R64). -/
def byteImage (ws : Words8) : Block :=
  tabulate 64 fun j => wordByte (ws[j.val / 8]'(by omega)) (j.val % 8)

/-- The data bytes D[0..LEN-1] of an UPDATE: the first LEN bytes of DATA_IN's image (R92, R152). -/
def dataBytes (len : BitVec 7) (s : State) : List Byte :=
  (byteImage s.dataIn).toList.take len.toNat

/-- The 64 salt bytes of an INIT_SALTED: SALT_IN's image (R92, R144). -/
def saltBytes (s : State) : Block := byteImage s.saltIn

/-- `B[at .. at+n-1] <- D[0 .. n-1]` (R11); bytes of `D` past offset 63 are not stored. -/
def writeBytes (b : Block) (start : Nat) (d : List Byte) : Block :=
  tabulate 64 fun j =>
    if start ≤ j.val ∧ j.val < start + d.length then d.getD (j.val - start) 0 else b[j]

/-- `fill(B, lo..hi, v)`: empty when hi < lo (R11). -/
def fillBytes (b : Block) (lo hi : Nat) (v : Byte) : Block :=
  tabulate 64 fun j => if lo ≤ j.val ∧ j.val ≤ hi then v else b[j]

/-- The block whose bytes are the first 64 bytes of a list. -/
def blockOf (d : List Byte) : Block := tabulate 64 fun j => d.getD j.val 0

end Sys2Proof.Machine
end

