-- ==== Sys2Proof/Machine/Ops.lean ====
section
/-! DEFINITION. The named operations the commands and the register accesses share: recording an error
(the block's only "trap entry", 60_exceptions R214, R220, R223) and clearing it (its "return", R184,
R223), a command's admission and acceptance (R218, 41_state_controller R140), and the bit counter
(R145). -/

namespace Sys2Proof.Machine

/-- `raise Error(code)`: the first error since ERR was last clear is recorded, later ones are not
(R214). Nothing else changes. -/
def State.raise (s : State) (code : ErrCode) : State :=
  if s.err then s else { s with err := true, errcode := code }

/-- A command turned away at check 3, 4 or 5 of R218: the error is recorded and DONE set (R220). -/
def State.reject (s : State) (code : ErrCode) : State := { s.raise code with done := true }

/-- The host's write of STATUS, "return" in R223's terms: bit 4 clears DONE, bit 5 clears ERR and
ERRCODE, every other bit is ignored (R184). -/
def State.clearFlags (s : State) (v : Word) : State :=
  { s with
    done := if v.getLsbD 4 then false else s.done
    err := if v.getLsbD 5 then false else s.err
    errcode := if v.getLsbD 5 then .noError else s.errcode }

/-- The host's write of CTRL (R186). -/
def State.setCtrl (s : State) (v : Word) : State :=
  { s with doneIe := v.getLsbD 0, errIe := v.getLsbD 1 }

/-- Acceptance: BUSY is set and the opcode and length are latched; nothing else changes (R140). -/
def State.latch (s : State) (op : BitVec 4) (len : BitVec 7) : State :=
  { s with busy := true, latchOp := op, latchLen := len }

/-- Checks 4 and 5 of R218 on a decoded command: the error it raises, if any. UPDATE's length is
checked before the lifecycle state. -/
def admission (i : Instr) (l : LState) : Option ErrCode :=
  match i with
  | .nop => none
  | .init => none
  | .initSalted => none
  | .update len =>
    if Instr.lenLegal len = false then some .badLen
    else if l ≠ .accumulating then some .invalidState
    else none
  | .final => if l ≠ .accumulating then some .invalidState else none

/-- The 128-bit counter `BITCNT_HI ++ BITCNT_LO` (R28). -/
def State.bitcnt (s : State) : BitVec 128 := s.bitcntHi ++ s.bitcntLo

/-- CountAdd(n): `8n` is added to the low word modulo 2^64, and a wrap of the low word carries into
the high word, itself modulo 2^64 (R145, D23). -/
def State.countAdd (s : State) (n : Nat) : State :=
  let add := BitVec.ofNat 64 (8 * n)
  let lo := s.bitcntLo + add
  { s with
    bitcntLo := lo
    bitcntHi := if lo < add then s.bitcntHi + 1 else s.bitcntHi }

end Sys2Proof.Machine
end

