-- ==== Sys2Proof/Machine/Compression.lean ====
section
/-! DEFINITION. The hash compression matrix engine (40_compression): the compression input, the column
selector, the masked additions, and the COMPRESS micro-operation on the state. -/

namespace Sys2Proof.Machine

/-- The salt mixer: the block, XORed byte by byte with the salt when it applies (R122). -/
def mixSalt (apply : Bool) (salt b : Block) : Block :=
  tabulate 64 fun j => b[j] ^^^ (if apply then salt[j] else 0)

/-- The compression input CIN: the chain value as 64 little-endian bytes, then the 64 bytes of the
block, already mixed with the salt (R121, R122). -/
def compressionInput (chain : Words8) (b : Block) : Vector Byte 128 :=
  tabulate 128 fun j =>
    if h : j.val < 64 then (byteImage chain)[j.val] else b[j.val - 64]'(by omega)

/-- Bit `i` of the compression input: bit `i mod 8` of byte `i div 8` (R13). -/
def cinBit (cin : Vector Byte 128) (i : Fin 1024) : BitVec 1 :=
  ((cin[i.val >>> 3]'(by have := i.isLt; omega)) >>> (i.val &&& 7)).setWidth 1

/-- The mask of a bit by two's-complement negation: all ones for 1, zero for 0 (R124). -/
def bitMask (b : BitVec 1) : Word := -(b.setWidth 64)

/-- One column: every row adds `mask AND MATRIX(row, column)` to its accumulator (R123). -/
def columnStep (p : Params) (cin : Vector Byte 128) (acc : Words8) (i : Fin 1024) : Words8 :=
  tabulate 8 fun r => acc[r] + (bitMask (cinBit cin i) &&& p.matrix r i)

/-- The accumulator array after all 1024 columns, visited in order, from zero (R123). Irreducible, so
that no proof unrolls the 1024 columns by accident. -/
@[irreducible] def accumulate (p : Params) (cin : Vector Byte 128) : Words8 :=
  (List.finRange 1024).foldl (columnStep p cin) zeroWords

/-- The new chain value of one compression of a block the salt is already mixed into (R125). -/
def nextChain (p : Params) (chain : Words8) (b : Block) : Words8 :=
  accumulate p (compressionInput chain b)

/-- COMPRESS(B, apply_salt) (R120 to R125): the accumulators are read out into CHAIN and NCOMP counts
the compression. COL is left at the last column and ACC at its result (R24; DEDUCED, log 10). -/
def State.compress (p : Params) (b : Block) (applySalt : Bool) (s : State) : State :=
  let out := nextChain p s.chain (mixSalt (applySalt && s.salted) s.salt b)
  { s with acc := out, col := 1023, chain := out, ncomp := s.ncomp + 1 }

end Sys2Proof.Machine
end

