-- ==== Sys2Proof/Machine/Controller.lean ====
section
/-! DEFINITION. The Merkle–Damgård state controller: initialisation, the absorption path, the padding
encoder and finalisation (41_state_controller R143 to R154), each on the whole state. -/

namespace Sys2Proof.Machine

/-- INIT's writes (R143). ACC, COL, SALT_IN, DATA_IN, CTRL, ERR and ERRCODE are left alone. -/
def State.initHash (s : State) : State :=
  { s with
    chain := zeroWords
    bitcntLo := 0
    bitcntHi := 0
    buf := zeroBlock
    plen := 0
    salt := zeroBlock
    salted := false
    ncomp := 0
    lstate := .accumulating }

/-- `BUF[0 .. m-1] <- D[0 .. m-1]; PLEN <- m`, the end of the absorption path (R146). -/
def State.storeRest (s : State) (d : List Byte) : State :=
  { s with buf := writeBytes s.buf 0 d, plen := BitVec.ofNat 6 d.length }

/-- The `while` loop of R146 and the store after it, on the data not yet consumed. `fuel` bounds the
iterations; any number at least the data's length will do. -/
def State.absorbRest (p : Params) : Nat → List Byte → State → State
  | 0, d, s => s.storeRest d
  | fuel + 1, d, s =>
    if d.length < 64 then s.storeRest d
    else State.absorbRest p fuel (d.drop 64) (s.compress p (blockOf d) true)

/-- ABSORB(D[0..n-1]) for any n (R146); the bytes of BUF it does not write stay (log 14). -/
def State.absorb (p : Params) (d : List Byte) (s : State) : State :=
  if d = [] then s
  else
    let r := s.plen.toNat
    let s1 := s.countAdd d.length
    if r + d.length < 64 then
      { s1 with buf := writeBytes s1.buf r d, plen := BitVec.ofNat 6 (r + d.length) }
    else
      let k := 64 - r
      let s2 := { s1 with buf := writeBytes s1.buf r (d.take k) }
      State.absorbRest p d.length (d.drop k) (s2.compress p s2.buf true)

/-- INIT_SALTED's writes (R144): those of INIT, the salt from SALT_IN, SALTED, and one all-zero
block absorbed. -/
def State.initSaltedHash (p : Params) (s : State) : State :=
  State.absorb p (List.replicate 64 0) { s.initHash with salt := saltBytes s, salted := true }

/-- The length field: `BUF[48..55] <- LE64enc(BITCNT_LO); BUF[56..63] <- LE64enc(BITCNT_HI)` (R153). -/
def State.storeLength (s : State) : State :=
  { s with buf := writeBytes (writeBytes s.buf 48 (le64enc s.bitcntLo)) 56 (le64enc s.bitcntHi) }

/-- PAD, the padding encoder (R153): the 0x80 marker, zero fill, an overflow block compressed first
when PLEN leaves no room for the length, and the length field. -/
def State.pad (p : Params) (s : State) : State :=
  let r := s.plen.toNat
  let marked := writeBytes s.buf r [0x80]
  if r < 48 then
    { s with buf := fillBytes marked (r + 1) 47 0 }.storeLength
  else
    let s1 := { s with buf := fillBytes marked (r + 1) 63 0 }
    let s2 := s1.compress p s1.buf p.saltFinalBlocks
    { s2 with buf := fillBytes s2.buf 0 47 0 }.storeLength

/-- FINAL's writes (R154): PAD, the last compression, PLEN and LSTATE. -/
def State.finalHash (p : Params) (s : State) : State :=
  let s1 := s.pad p
  { s1.compress p s1.buf p.saltFinalBlocks with plen := 0, lstate := .finalized }

end Sys2Proof.Machine
end

