-- ==== Sys2Proof/Machine/Commands.lean ====
section
/-! DEFINITION. The meaning of each command: the engine's completion step on it (41_state_controller
R141, R142, R143, R144, R152, R154). The checks a command passes at acceptance are made again by the
two commands that have any; on a latch that acceptance made they pass (log 3). -/

namespace Sys2Proof.Machine

/-- A command whose admission fails at its completion is turned away with the error R220 gives its
form, with none of its effect; BUSY is cleared (DESIGN CHOICE, log 3: no accepted command is). -/
def State.turnAway (s : State) (code : ErrCode) : State := { s.reject code with busy := false }

/-- NOP: nothing but `BUSY <- 0; DONE <- 1` (R142). -/
def execNop (s : State) : Host.Outcome State Fault Refusal := .next s.finish

/-- INIT (R143). -/
def execInit (s : State) : Host.Outcome State Fault Refusal := .next s.initHash.finish

/-- INIT_SALTED (R144). -/
def execInitSalted (s : State) : Host.Outcome State Fault Refusal :=
  .next (s.initSaltedHash Config.params).finish

/-- UPDATE (R152): ABSORB of the first LEN bytes of DATA_IN's image. -/
def execUpdate (len : BitVec 7) (s : State) : Host.Outcome State Fault Refusal :=
  match admission (.update len) s.lstate with
  | some code => .next (s.turnAway code)
  | none => .next (s.absorb Config.params (dataBytes len s)).finish

/-- FINAL (R154). -/
def execFinal (s : State) : Host.Outcome State Fault Refusal :=
  match admission .final s.lstate with
  | some code => .next (s.turnAway code)
  | none => .next (s.finalHash Config.params).finish

end Sys2Proof.Machine
end

