-- ==== Sys2Proof/Machine/Engine.lean ====
section
/-! DEFINITION. The engine agent: what it reads from the latch, its completion step (41_state_controller
R141), and the platform's reset (70_reset R240, R241). -/

namespace Sys2Proof.Machine

/-- The command the latch holds (R22, R141); none for an opcode R141 says is never held. -/
def latchedInstr (s : State) : Option Instr := instrOfFields s.latchOp s.latchLen

/-- The engine's turn: a completion step exactly when BUSY = 1, and no step while BUSY = 0
(R141), written as a step that changes nothing (log 17). -/
def engineTurn (s : State) : Host.Outcome State Fault Refusal :=
  if s.busy then
    match latchedInstr s with
    | some i => exec i s
    | none => .fault (.latchUndefined s.latchOp)
  else .next s

/-- Reset: every piece of the engine's state takes its reset value, also while BUSY = 1 (R240, R241).
The host's side and the place in the free draws are no state of the block (DESIGN CHOICE, log 12). -/
def resetTurn (s : State) : State :=
  { State.reset with
    stream := s.stream, draws := s.draws, prog := s.prog, reads := s.reads, arrays := s.arrays,
    turns := s.turns }

end Sys2Proof.Machine
end

