-- ==== Sys2Proof/Machine/Window.lean ====
section
/-! DEFINITION. The host's accesses to the register window (20_memory R61, R62; 42_register_access
R180 to R199), with the check orders of 60_exceptions R218 and R219. -/

namespace Sys2Proof.Machine

/-- The slots of the register window (R62). -/
inductive Reg where
  /-- CMD, 0x000. -/
  | cmd
  /-- STATUS, 0x008. -/
  | status
  /-- CTRL, 0x010. -/
  | ctrl
  /-- NCOMP, 0x018. -/
  | ncomp
  /-- BITCNT_LO, 0x020. -/
  | bitcntLo
  /-- BITCNT_HI, 0x028. -/
  | bitcntHi
  /-- ID, 0x030. -/
  | id
  /-- The one unmapped slot, 0x038 (R199). -/
  | unmapped
  /-- DIGEST[k], 0x040 + 8k. -/
  | digest (k : Fin 8)
  /-- SALT_IN[k], 0x080 + 8k. -/
  | saltIn (k : Fin 8)
  /-- DATA_IN[k], 0x0C0 + 8k. -/
  | dataIn (k : Fin 8)
  deriving DecidableEq, Repr

/-- The size of the window in bytes (R61). -/
def windowBytes : Nat := 256

/-- The slot at an offset; none for an offset that is not a multiple of 8 or lies outside the
window (R62, R67). -/
def Reg.ofOffset (off : Nat) : Option Reg :=
  if off % 8 ≠ 0 then none
  else if off = 0x000 then some .cmd
  else if off = 0x008 then some .status
  else if off = 0x010 then some .ctrl
  else if off = 0x018 then some .ncomp
  else if off = 0x020 then some .bitcntLo
  else if off = 0x028 then some .bitcntHi
  else if off = 0x030 then some .id
  else if off = 0x038 then some .unmapped
  else if h : 0x040 ≤ off ∧ off < 0x080 then some (.digest ⟨(off - 0x040) / 8, by omega⟩)
  else if h : 0x080 ≤ off ∧ off < 0x0C0 then some (.saltIn ⟨(off - 0x080) / 8, by omega⟩)
  else if h : 0x0C0 ≤ off ∧ off < 0x100 then some (.dataIn ⟨(off - 0x0C0) / 8, by omega⟩)
  else none

/-- The offset of a slot (R62); register names may stand for offsets (30_encoding R96). -/
def Reg.offset : Reg → Nat
  | .cmd => 0x000
  | .status => 0x008
  | .ctrl => 0x010
  | .ncomp => 0x018
  | .bitcntLo => 0x020
  | .bitcntHi => 0x028
  | .id => 0x030
  | .unmapped => 0x038
  | .digest k => 0x040 + 8 * k.val
  | .saltIn k => 0x080 + 8 * k.val
  | .dataIn k => 0x0C0 + 8 * k.val

/-- The slot an access of a width in bits reaches: only 64-bit accesses at multiples of 8 have one
(R67, R180); every other width is treated alike (log 16). -/
def Reg.ofAccess (width off : Nat) : Option Reg :=
  if width = 64 then Reg.ofOffset off else none

/-- One more unspecified read has been drawn (R73; log 6). -/
def State.drawn (s : State) : State := { s with draws := s.draws + 1 }

/-- What STATUS reads while BUSY = 0 (R183). -/
def statusIdle (s : State) : Word :=
  statusWord s.plen s.errcode s.err s.done s.busy s.salted s.lstate.code

/-- What STATUS reads while BUSY = 1: BUSY, DONE, ERR and ERRCODE exactly, and LSTATE, SALTED and
PLEN as free draws (R73, R183). -/
def statusBusy (s : State) : Word :=
  statusWord (Config.freePlen s.stream s.draws) s.errcode s.err s.done s.busy
    (Config.freeSalted s.stream s.draws) (Config.freeLState s.stream s.draws)

/-- Read STATUS (R183): free fields while BUSY = 1 (R73; log 6, log 7). -/
def readStatus (s : State) : Word × State :=
  if s.busy then (statusBusy s, s.drawn) else (statusIdle s, s)

/-- Read a register whose value is unspecified while BUSY = 1 (R73, R187, R189). -/
def readUnlessBusy (v : Word) (s : State) : Word × State :=
  if s.busy then (Config.freeWord s.stream s.draws, s.drawn) else (v, s)

/-- What DIGEST[k] reads (10_state R40, R192). -/
def digestWord (s : State) (k : Fin 8) : Word :=
  if s.lstate = .finalized ∧ s.busy = false then s.chain[k] else 0

/-- A read of a slot: R181, R183, R185, R187, R189, R191, R192, R193, R199. -/
def readReg (p : Params) (r : Reg) (s : State) : Word × State :=
  match r with
  | .cmd => (0, s)
  | .status => readStatus s
  | .ctrl => (ctrlWord s, s)
  | .ncomp => readUnlessBusy s.ncomp s
  | .bitcntLo => readUnlessBusy s.bitcntLo s
  | .bitcntHi => readUnlessBusy s.bitcntHi s
  | .id => (idWord p, s)
  | .unmapped => (0, s.raise .access)
  | .digest k => (digestWord s k, s)
  | .saltIn k => (s.saltIn[k], s)
  | .dataIn k => (s.dataIn[k], s)

/-- Write CMD (R182): the checks of R218 after width and alignment, then acceptance (R140). -/
def writeCmd (v : Word) (s : State) : State :=
  if s.busy then s.raise .busyWrite
  else
    match decode v with
    | .error _ => s.reject .illegalCmd
    | .ok i =>
      match admission i s.lstate with
      | some code => s.reject code
      | none => s.latch (opField v) (lenField v)

/-- The checks of a BITCNT write, in order (R190, R219). -/
def writeHook (set : State) (s : State) : State :=
  if s.busy then s.raise .busyWrite
  else if s.lstate ≠ .accumulating then s.raise .invalidState
  else set

/-- The check of a staging-register write (R194, R219). -/
def writeStaging (set : State) (s : State) : State :=
  if s.busy then s.raise .busyWrite else set

/-- A write of a slot: R182, R184, R186, R188, R190, R194, R199. -/
def writeReg (r : Reg) (v : Word) (s : State) : State :=
  match r with
  | .cmd => writeCmd v s
  | .status => s.clearFlags v
  | .ctrl => s.setCtrl v
  | .ncomp => s.raise .access
  | .bitcntLo => writeHook { s with bitcntLo := v } s
  | .bitcntHi => writeHook { s with bitcntHi := v } s
  | .id => s.raise .access
  | .unmapped => s.raise .access
  | .digest _ => s.raise .access
  | .saltIn k => writeStaging { s with saltIn := s.saltIn.set k v } s
  | .dataIn k => writeStaging { s with dataIn := s.dataIn.set k v } s

/-- BusRead(off) at a width in bits (00_scope R12). An offset outside the window does not reach the
block (R61), and the host then reads something the spec does not give (log 8). -/
def busRead (p : Params) (width off : Nat) (s : State) : Word × State :=
  if windowBytes ≤ off then (Config.freeBusRead s.stream s.draws, s.drawn)
  else
    match Reg.ofAccess width off with
    | none => (0, s.raise .access)
    | some r => readReg p r s

/-- BusWrite(off, v) at a width in bits (00_scope R12). An offset outside the window does not reach
the block (R61). -/
def busWrite (width off : Nat) (v : Word) (s : State) : State :=
  if windowBytes ≤ off then s
  else
    match Reg.ofAccess width off with
    | none => s.raise .access
    | some r => writeReg r v s

end Sys2Proof.Machine
end

