-- ==== Sys2Proof/Machine/HostProgram.lean ====
section
/-! DEFINITION. The host agent: how a line of a host program is performed, and the pseudo-operations and
their expansions (30_encoding R96 to R104). -/

namespace Sys2Proof.Machine

/-- What a name was last bound to. -/
def lookupName {α : Type} (name : String) : List (String × α) → Option α
  | [] => none
  | (n, v) :: rest => if n = name then some v else lookupName name rest

/-- `b[8k..8k+7] <- LE64enc(w)` (R101). -/
def layWord (b : Block) (k : Fin 8) (w : Word) : Block := writeBytes b (8 * k.val) (le64enc w)

/-- A byte array of the host; one nothing has been laid into holds zero bytes (DESIGN CHOICE, log 19). -/
def arrayOf (out : String) (s : State) : Block := (lookupName out s.arrays).getD zeroBlock

/-- The host performs one line whose remaining program is `rest` (R96). A `wait` is one
`rd STATUS -> s` of R98's loop in each turn, and stays first in the program while BUSY was read as 1. -/
def performLine (p : Params) (line : HostLine) (rest : List HostLine) (s : State) :
    Host.Outcome State Fault Refusal :=
  match line with
  | .wr width off v => .next { busWrite width off v s with prog := rest }
  | .rd width off name =>
    let out := busRead p width off s
    .next { out.2 with prog := rest, reads := (name, out.1) :: s.reads }
  | .expect name v =>
    match lookupName name s.reads with
    | none => .fault (.nameNotRead name)
    | some found => if found = v then .next { s with prog := rest } else .fault (.expectFailed name found v)
  | .wait =>
    let out := busRead p 64 Reg.status.offset s
    .next { out.2 with
      prog := if out.1.getLsbD 3 then .wait :: rest else rest
      reads := ("s", out.1) :: s.reads }
  | .lay out k name =>
    match lookupName name s.reads with
    | none => .fault (.nameNotRead name)
    | some w => .next { s with prog := rest, arrays := (out, layWord (arrayOf out s) k w) :: s.arrays }

/-- The host's turn: its next line, or nothing when it has none left (R253; log 17). -/
def hostTurn (p : Params) (s : State) : Host.Outcome State Fault Refusal :=
  match s.prog with
  | [] => .next s
  | line :: rest => performLine p line rest s

/-- `cmd MNEMONIC[, LEN]`: a write of the command word to CMD (R96, R97). -/
def cmdLine (i : Instr) : HostLine := .wr 64 Reg.cmd.offset (encode i)

/-- The assembler's `cmd UPDATE, n`: refused when the field cannot hold `n` (R97). -/
def assembleUpdate (n : Nat) : Option HostLine :=
  if n ≤ 127 then some (cmdLine (.update (BitVec.ofNat 7 n))) else none

/-- The eight little-endian words of a block (R99, R100). -/
def wordsOfBlock (b : Block) : Words8 := tabulate 8 fun k => lew b k

/-- Eight writes, one word to each register of an array. -/
def loadWords (r : Fin 8 → Reg) (ws : Words8) : List HostLine :=
  (List.finRange 8).map fun k => .wr 64 (r k).offset ws[k]

/-- `load_data B`: `B` padded with zero bytes to 64 (R99). R99 gives no meaning to more than 64 bytes: here
the first 64 are written and the others dropped (DESIGN CHOICE, log 22). The bytes of this and of the other
pseudo-operations are fixed when the program is written (DESIGN CHOICE, log 19). -/
def loadData (bs : List Byte) : List HostLine := loadWords .dataIn (wordsOfBlock (blockOf bs))

/-- `load_salt S` (R100), of bytes fixed when the program is written (DESIGN CHOICE, log 19). -/
def loadSalt (salt : Block) : List HostLine := loadWords .saltIn (wordsOfBlock salt)

/-- `read_digest -> OUT[0..63]` (R101): for each k a read of DIGESTk to `w`, and the eight bytes of `w`
laid into the array. -/
def readDigest (out : String) : List HostLine :=
  (List.finRange 8).flatMap fun k => [.rd 64 (Reg.digest k).offset "w", .lay out k "w"]

/-- The 64 bytes of a digest whose eight words are given (R40, R101). -/
def digestBytes (ws : Words8) : Block := byteImage ws

/-- `update_bytes` on data already split into chunks (R102). R102's chunks have at most 64 bytes: for a
longer one the first 64 bytes are loaded, and LEN is its length modulo 128 (DESIGN CHOICE, log 22). -/
def updateChunks (chunks : List (List Byte)) : List HostLine :=
  chunks.flatMap fun c => loadData c ++ [cmdLine (.update (BitVec.ofNat 7 c.length)), .wait]

/-- 64-byte chunks and then one shorter chunk (R102; log 19). `fuel` bounds their number; any number at
least the data's length will do. -/
def chunks64 : Nat → List Byte → List (List Byte)
  | 0, _ => []
  | fuel + 1, m => if m = [] then [] else m.take 64 :: chunks64 fuel (m.drop 64)

/-- `update_bytes M` (R102), of bytes fixed when the program is written (DESIGN CHOICE, log 19). -/
def updateBytes (m : List Byte) : List HostLine := updateChunks (chunks64 m.length m)

/-- `hash M -> OUT` (R103). -/
def hashLines (m : List Byte) (out : String) : List HostLine :=
  [cmdLine .init, .wait] ++ updateBytes m ++ [cmdLine .final, .wait] ++ readDigest out

/-- `hash_salted M, S -> OUT` (R104). -/
def hashSaltedLines (m : List Byte) (salt : Block) (out : String) : List HostLine :=
  loadSalt salt ++ [cmdLine .initSalted, .wait] ++ updateBytes m ++ [cmdLine .final, .wait] ++
    readDigest out

end Sys2Proof.Machine
end

