-- ==== Sys2Proof/Machine/Step.lean ====
section
/-! DEFINITION. One step of the machine: one agent moves (20_memory R71, 70_reset R251). -/

namespace Sys2Proof.Machine

/-- The agent named by a turn moves. -/
def takeTurn (t : Turn) (s : State) : Host.Outcome State Fault Refusal :=
  match t with
  | .host => hostTurn Config.params s
  | .engine => engineTurn s
  | .reset => .next (resetTurn s)

/-- Which agent moves when no turn is listed: the engine if it is enabled, so that a latched command
completes (weak fairness, R251), and the host otherwise (DESIGN CHOICE, log 1). -/
def defaultTurn (s : State) : Turn := if s.busy then .engine else .host

/-- One step: the next listed turn, or the default one (R16, R71). -/
def step (s : State) : Host.Outcome State Fault Refusal :=
  match s.turns with
  | [] => takeTurn (defaultTurn s) s
  | t :: ts => takeTurn t { s with turns := ts }

/-- The command word `w`, placed where the next step takes its command from (log 11). A word the
decoder accepts is held in the latch with BUSY = 1, as after its acceptance (R140), and the engine
moves next. A word it refuses cannot be latched: the host moves next and writes it to CMD (R212). -/
def State.withFetchWord (s : State) (nbits w : Nat) : State :=
  let v := BitVec.ofNat 64 (w % 2 ^ nbits)
  match decode v with
  | .ok _ => { s.latch (opField v) (lenField v) with turns := .engine :: s.turns }
  | .error _ => { s with prog := .wr 64 Reg.cmd.offset v :: s.prog, turns := .host :: s.turns }

end Sys2Proof.Machine
end

