-- ==== Sys2Proof/Machine/Platform.lean ====
section
/-! DEFINITION. Several engines on one bus (20_memory R61, R77; 60_exceptions R227): each has its own
window at its own ENGINE_BASE and its own copy of the state. They share MATRIX, as R77 says, and
SALT_FINAL_BLOCKS, of which the spec does not say whether it is one for all (DESIGN CHOICE, log 15). -/

namespace Sys2Proof.Machine

/-- NUM_ENGINES engines, engine `i` at `Config.engineBase i` (R8, R77). -/
structure Platform where
  /-- The engines, in the order the platform numbers them, each with the host program directed at it
  (DESIGN CHOICE, log 21). -/
  engines : List State
  deriving DecidableEq, Repr

/-- Every engine starts from reset independently (R227), each with a stream of free draws of its own
(R73; log 6). -/
def Platform.reset : Platform :=
  ⟨(List.range Config.numEngines).map fun i => { State.reset with stream := i }⟩

/-- A bus address lies in the window of engine `i` (R61). -/
def inWindow (addr i : Nat) : Bool :=
  decide (Config.engineBase i ≤ addr ∧ addr < Config.engineBase i + windowBytes)

/-- The engine an address reaches, if any: the first whose window holds it (R61; log 15). -/
def Platform.route (pl : Platform) (addr : Nat) : Option Nat :=
  (List.range pl.engines.length).find? (inWindow addr)

/-- A bus write at an address: `off = address − ENGINE_BASE` of the engine it reaches (R61). -/
def Platform.write (pl : Platform) (width addr : Nat) (v : Word) : Platform :=
  match pl.route addr with
  | none => pl
  | some i => ⟨pl.engines.modify i (busWrite width (addr - Config.engineBase i) v)⟩

/-- A bus read at an address: the value and the platform after it; none when no engine is reached,
for then the read does not reach a block (R61). SALT_FINAL_BLOCKS is the same for all engines (log 15). -/
def Platform.read (pl : Platform) (width addr : Nat) : Option (Word × Platform) :=
  match pl.route addr with
  | none => none
  | some i =>
    match pl.engines[i]? with
    | none => none
    | some s =>
      let out := busRead Config.params width (addr - Config.engineBase i) s
      some (out.1, ⟨pl.engines.set i out.2⟩)

/-- One step of engine `i` and of the host program directed at it (R77), with the one SALT_FINAL_BLOCKS
of all engines (log 15); an index that no engine has changes nothing. How a host program names an engine
is not in the spec: here every engine has a program, reads, arrays and turns of its own, so one program
cannot access two engines, and a fault at one engine, such as its program's false `expect`, is the fault of
the platform's step (DESIGN CHOICE, log 21). -/
def Platform.step (pl : Platform) (i : Nat) : Host.Outcome Platform Fault Refusal :=
  match pl.engines[i]? with
  | none => .next pl
  | some s =>
    match Machine.step s with
    | .next t => .next ⟨pl.engines.set i t⟩
    | .fault f => .fault f
    | .refused r => .refused r

end Sys2Proof.Machine
end

