-- ==== Sys2Proof/Safety.lean ====
section
/-! DEFINITION. The terms claims are stated in: the invariant of the state (10_state R43 and what R33 and
R141 say of ERR and the latch), the end of a host program (R253), what it means that a byte sequence has
been absorbed (41_state_controller R148), the padded tail of a message (R153), and agreement of two states
up to what no program can observe (R44). -/

namespace Sys2Proof.Machine

/-- The invariant every step keeps. -/
structure Inv (s : State) : Prop where
  /-- R43(c): in CREATED the hash state is all zero. -/
  created : s.lstate = .created →
    s.chain = zeroWords ∧ s.salt = zeroBlock ∧ s.buf = zeroBlock ∧ s.bitcntLo = 0 ∧ s.bitcntHi = 0 ∧
      s.plen = 0 ∧ s.salted = false ∧ s.ncomp = 0
  /-- R43(d): without salting SALT is all zero. -/
  unsalted : s.salted = false → s.salt = zeroBlock
  /-- R33: ERRCODE is NONE exactly while ERR = 0. -/
  recorded : s.err = false ↔ s.errcode = .noError
  /-- R141: the latched command is one that acceptance admits. -/
  latched : s.busy = true → ∃ i, latchedInstr s = some i ∧ admission i s.lstate = none

/-- The agent that moves in the next step (R71). -/
def nextTurn (s : State) : Turn :=
  match s.turns with
  | [] => defaultTurn s
  | t :: _ => t

/-- The state the agent moves in: the turn it uses is taken off the list. -/
def State.popTurn (s : State) : State := { s with turns := s.turns.tail }

/-- A host program has ended: its last line has been performed and BUSY = 0 (R253). -/
def State.ended (s : State) : Prop := s.prog = [] ∧ s.busy = false

/-- The `i`-th 64-byte block of a byte sequence. -/
def blockAt (t : List Byte) (i : Nat) : Block := blockOf (t.drop (64 * i))

/-- The chain value after compressing, in order, the whole blocks of a byte sequence, each XORed
with the salt when `salted` (R148). -/
def chainOf (p : Params) (salted : Bool) (salt : Block) (c : Words8) (t : List Byte) : Words8 :=
  (List.range (t.length / 64)).foldl (fun c i => nextChain p c (mixSalt salted salt (blockAt t i))) c

/-- `t` is what has been absorbed since the last INIT or INIT_SALTED, as far as the state shows it (R148). -/
structure Absorbed (p : Params) (t : List Byte) (s : State) : Prop where
  /-- Every whole block of `t` has been compressed, in order. -/
  chain : s.chain = chainOf p s.salted s.salt zeroWords t
  /-- PLEN is the number of bytes after the last whole block. -/
  plen : s.plen.toNat = t.length % 64
  /-- BUF holds those bytes. -/
  pending : ∀ (j : Nat) (h : j < 64), j < t.length % 64 → s.buf[j] = t.getD (64 * (t.length / 64) + j) 0
  /-- BITCNT is eight times the length, modulo 2^128. -/
  count : s.bitcnt = BitVec.ofNat 128 (8 * t.length)
  /-- NCOMP counts the whole blocks, modulo 2^64. -/
  ncomp : s.ncomp = BitVec.ofNat 64 (t.length / 64)

/-- What FINAL appends after `r` pending bytes: the marker, zeros up to offset 48 of a block, and the
128-bit counter, low word first (R65, R153). -/
def paddingBytes (r : Nat) (lo hi : Word) : List Byte :=
  [0x80] ++ List.replicate (if r < 48 then 47 - r else 111 - r) 0 ++ le64enc lo ++ le64enc hi

/-- The pending bytes BUF[0..PLEN-1]. -/
def State.pendingBytes (s : State) : List Byte := s.buf.toList.take s.plen.toNat

/-- Two states differ at most in ACC, COL and the stale bytes BUF[PLEN..63] (R44). -/
structure SameUpToStale (s t : State) : Prop where
  /-- Every other field is equal. -/
  rest : { s with acc := t.acc, col := t.col, buf := t.buf } = t
  /-- The pending bytes are equal. -/
  pending : ∀ (j : Nat) (h : j < 64), j < s.plen.toNat → s.buf[j] = t.buf[j]

/-- Two outcomes are of the same kind, with next states that agree up to what no program can observe. -/
def SameOutcome : Host.Outcome State Fault Refusal → Host.Outcome State Fault Refusal → Prop
  | .next s, .next t => SameUpToStale s t
  | .fault f, .fault g => f = g
  | .refused f, .refused g => f = g
  | .next _, .fault _ => False
  | .next _, .refused _ => False
  | .fault _, .next _ => False
  | .fault _, .refused _ => False
  | .refused _, .next _ => False
  | .refused _, .fault _ => False

end Sys2Proof.Machine
end

