-- ==== Sys2Proof/Certificates/Slice0/Obligations.lean ====
section
/-! DEFINITION. The statements for the provers. `p` ranges over all parameters (MATRIX and
SALT_FINAL_BLOCKS), so that what is said holds for every matrix and both values; statements about exec
and step are about the machine's own parameters, which have no body. -/

open Sys2Proof Sys2Proof.Machine

/-! ## Encoding -/

/-- The decoder and the encoder are inverse to each other on all 64-bit words and all commands, so no
bit of a word is dropped and a word decodes to a command only if it is that command's word (R91, R93,
R94). -/
def Obligations.DecodeInvertsEncode : Prop :=
  ∀ (w : Word) (i : Instr), decode w = .ok i ↔ w = encode i

/-- The exact word values of the opcode map, written out bit by bit, and UPDATE's with LEN 3 (R93). -/
def Obligations.OpcodeWordsDecode : Prop :=
  decode 0b0000000000000000000000000000000000000000000000000000000000000000#64 = .ok .nop ∧
  decode 0b0000000000000000000000000000000000000000000000000000000000000001#64 = .ok .init ∧
  decode 0b0000000000000000000000000000000000000000000000000000000000000010#64 = .ok .initSalted ∧
  decode 0b0000000000000000000000000000000000000000000000000000001100000011#64 = .ok (.update 3) ∧
  decode 0b0000000000000000000000000000000000000000000000000000000000000100#64 = .ok .final

/-- R105's worked encodings: three words of UPDATE, and four words and the errors they raise when they
are written to CMD of an engine that is not busy. -/
def Obligations.WorkedEncodings : Prop :=
  encode (.update 3) = 0x0000_0000_0000_0303 ∧ encode (.update 64) = 0x0000_0000_0000_4003 ∧
  encode (.update 0) = 0x0000_0000_0000_0003 ∧ decode 0x0000_0000_0000_4103 = .ok (.update 65) ∧
  opField 0x0000_0000_0000_0101 = 1 ∧ lenField 0x0000_0000_0000_0101 = 1 ∧
  opField 0x8000_0000_0000_0004 = 4 ∧
  ∀ s : State, s.busy = false →
    busWrite 64 0 0x0000_0000_0000_4103 s = s.reject .badLen ∧
    busWrite 64 0 0x0000_0000_0000_0101 s = s.reject .illegalCmd ∧
    busWrite 64 0 0x0000_0000_0000_0005 s = s.reject .illegalCmd ∧
    busWrite 64 0 0x8000_0000_0000_0004 s = s.reject .illegalCmd

/-- R97: `cmd UPDATE, n` is the write of `0x3 | (n << 8)` to CMD for 0 ≤ n ≤ 127 and is refused for
n > 127; the other four commands' words. -/
def Obligations.AssembledCommands : Prop :=
  (∀ n : Nat, n ≤ 127 → assembleUpdate n = some (.wr 64 0x000 (0x3#64 ||| (BitVec.ofNat 64 n <<< 8)))) ∧
  (∀ n : Nat, 127 < n → assembleUpdate n = none) ∧
  cmdLine .nop = .wr 64 0 0x0 ∧ cmdLine .init = .wr 64 0 0x1 ∧ cmdLine .initSalted = .wr 64 0 0x2 ∧
  cmdLine .final = .wr 64 0 0x4

/-! ## A step runs the latched command -/

/-- When the latch holds the fields of a word that decodes to a command and BUSY = 1, the engine's
move, listed or by default (log 1), is exec of that command, on the state whose turn has been used
(R141). -/
def Obligations.StepRunsLatchedCommand : Prop :=
  ∀ (s : State) (w : Word) (i : Instr), s.busy = true → decode w = .ok i →
    s.latchOp = opField w → s.latchLen = lenField w →
    (s.turns = [] → step s = exec i s) ∧
    ∀ rest : List Turn, s.turns = .engine :: rest → step s = exec i { s with turns := rest }

/-- The word placed by withFetchWord is the command the very next step runs, with BUSY = 1 and the
latch as acceptance leaves them (R140) and everything else as it was (log 11). -/
def Obligations.FetchedWordRunsNext : Prop :=
  ∀ (s : State) (nbits w : Nat) (i : Instr), decodeTableWord nbits w = some i →
    step (s.withFetchWord nbits w) =
      exec i { s with busy := true, latchOp := opcode i, latchLen := lenOf i }

/-- R141: under the machine's invariant the engine's move with BUSY = 1 always completes, sets DONE,
clears BUSY and raises no error. The second clause is the model's choice (log 17): with BUSY = 0, where
R141 says the engine takes no step, a turn given to it is a step that changes nothing. -/
def Obligations.CompletionRaisesNoError : Prop :=
  (∀ s : State, Inv s → s.busy = true →
    ∃ t, engineTurn s = .next t ∧ t.busy = false ∧ t.done = true ∧ t.err = s.err ∧ t.errcode = s.errcode) ∧
  ∀ s : State, s.busy = false → engineTurn s = .next s

/-! ## Command acceptance and errors -/

/-- R140: an accepted CMD write sets BUSY, latches bits 3:0 and 14:8, and changes nothing else. -/
def Obligations.AcceptanceLatchesOnly : Prop :=
  ∀ (s : State) (v : Word) (i : Instr), s.busy = false → decode v = .ok i → admission i s.lstate = none →
    busWrite 64 0 v s = { s with busy := true, latchOp := v.extractLsb' 0 4, latchLen := v.extractLsb' 8 7 }

/-- R218: the order of the checks of a CMD write, in terms of the word's bits. -/
def Obligations.CmdWriteCheckOrder : Prop :=
  ∀ (s : State) (v : Word),
    (∀ width : Nat, width ≠ 64 → busWrite width 0 v s = s.raise .access) ∧
    busWrite 64 0 v s =
      if s.busy = true then s.raise .busyWrite
      else if 5 ≤ (v.extractLsb' 0 4).toNat ∨ v.extractLsb' 4 4 ≠ 0 ∨ v.extractLsb' 15 49 ≠ 0 ∨
          (v.extractLsb' 0 4 ≠ 3 ∧ v.extractLsb' 8 7 ≠ 0) then s.reject .illegalCmd
      else if v.extractLsb' 0 4 = 3 ∧ 64 < (v.extractLsb' 8 7).toNat then s.reject .badLen
      else if (v.extractLsb' 0 4 = 3 ∨ v.extractLsb' 0 4 = 4) ∧ s.lstate ≠ .accumulating then
        s.reject .invalidState
      else { s with busy := true, latchOp := v.extractLsb' 0 4, latchLen := v.extractLsb' 8 7 }

/-- R213: outside ACCUMULATING, a CMD write of UPDATE with any legal LEN, one of FINAL, and a write of
either BITCNT word raise INVALID_STATE (engine not busy). -/
def Obligations.InvalidStateRaised : Prop :=
  ∀ s : State, s.busy = false → s.lstate ≠ .accumulating →
    (∀ len : BitVec 7, len.toNat ≤ 64 → busWrite 64 0 (encode (.update len)) s = s.reject .invalidState) ∧
    busWrite 64 0 (encode .final) s = s.reject .invalidState ∧
    ∀ v : Word, busWrite 64 0x020 v s = s.raise .invalidState ∧ busWrite 64 0x028 v s = s.raise .invalidState

/-- R214's primitive: with ERR = 0 an error sets ERR and its code and nothing else; with ERR = 1 it
changes nothing. A write of STATUS with bit 5 set, and reset, clear both (R33); no other access and no
completion makes a recorded error disappear or changes its code. -/
def Obligations.FirstErrorIsKept : Prop :=
  (∀ (s : State) (c : ErrCode),
    (s.err = false → s.raise c = { s with err := true, errcode := c }) ∧ (s.err = true → s.raise c = s)) ∧
  (∀ (s : State) (v : Word), v.getLsbD 5 = true →
    (busWrite 64 0x008 v s).err = false ∧ (busWrite 64 0x008 v s).errcode = .noError) ∧
  (∀ s : State, (resetTurn s).err = false ∧ (resetTurn s).errcode = .noError) ∧
  ∀ s s' : State, step s = .next s' → s.err = true →
    (s'.err = true ∧ s'.errcode = s.errcode) ∨ nextTurn s = .reset ∨
      (nextTurn s = .host ∧ ∃ v rest, s.prog = .wr 64 0x008 v :: rest ∧ v.getLsbD 5 = true)

/-- R32: every completion and every rejection at checks 3 to 5 sets DONE; a write of STATUS with bit 4
set and reset clear it, and nothing else does. -/
def Obligations.DoneIsSticky : Prop :=
  (∀ (i : Instr) (s t : State), exec i s = .next t → t.done = true) ∧
  (∀ (s : State) (v : Word), s.busy = false → (busWrite 64 0 v s).busy = false → (busWrite 64 0 v s).done = true) ∧
  (∀ (s : State) (v : Word), v.getLsbD 4 = true → (busWrite 64 0x008 v s).done = false) ∧
  (∀ s : State, (resetTurn s).done = false) ∧
  ∀ s s' : State, step s = .next s' → s.done = true →
    s'.done = true ∨ nextTurn s = .reset ∨
      (nextTurn s = .host ∧ ∃ v rest, s.prog = .wr 64 0x008 v :: rest ∧ v.getLsbD 4 = true)

/-- R220: a CMD write rejected at check 3, 4 or 5 changes only ERR and ERRCODE, by R214, and DONE; one
rejected at check 1 or 2 does not change DONE. -/
def Obligations.RejectedCommandFrame : Prop :=
  (∀ (s : State) (v : Word), s.busy = false →
    ((∃ e, decode v = .error e) ∨ ∃ i c, decode v = .ok i ∧ admission i s.lstate = some c) →
    ∃ c : ErrCode, busWrite 64 0 v s =
      { s with done := true, err := true, errcode := if s.err then s.errcode else c }) ∧
  ∀ (s : State) (width : Nat) (v : Word), width ≠ 64 ∨ s.busy = true →
    (busWrite width 0 v s).done = s.done

/-- R216: while BUSY = 1, writes to CMD, SALT_IN, DATA_IN and BITCNT are dropped and raise BUSY_WRITE,
the running command still completes and sets DONE, and writes to STATUS and CTRL raise no error and
have their effect. -/
def Obligations.BusyWritesAreDropped : Prop :=
  ∀ (s : State) (v : Word), s.busy = true →
    (∀ off : Nat, (off = 0x000 ∨ off = 0x020 ∨ off = 0x028 ∨ (0x080 ≤ off ∧ off < 0x100 ∧ off % 8 = 0)) →
      busWrite 64 off v s = s.raise .busyWrite ∧
      ∀ i, latchedInstr s = some i →
        ∃ t, engineTurn (busWrite 64 off v s) = .next t ∧ t.busy = false ∧ t.done = true) ∧
    busWrite 64 0x008 v s =
      { s with
        done := s.done && !v.getLsbD 4
        err := s.err && !v.getLsbD 5
        errcode := if v.getLsbD 5 then .noError else s.errcode } ∧
    busWrite 64 0x010 v s = { s with doneIe := v.getLsbD 0, errIe := v.getLsbD 1 }

/-- R217: ACCESS is raised by every access of another width or at an offset not a multiple of 8, by any
access to 0x038, and by writes to NCOMP, ID and DIGEST[k]; such a read returns 0; nothing but ERR and
ERRCODE changes, whatever BUSY is. -/
def Obligations.AccessErrors : Prop :=
  ∀ (p : Params) (s : State) (v : Word),
    (∀ width off : Nat, off < 256 → (width ≠ 64 ∨ off % 8 ≠ 0 ∨ off = 0x038) →
      busRead p width off s = (0, s.raise .access) ∧ busWrite width off v s = s.raise .access) ∧
    (∀ off : Nat, (off = 0x018 ∨ off = 0x030 ∨ (0x040 ≤ off ∧ off < 0x080 ∧ off % 8 = 0)) →
      busWrite 64 off v s = s.raise .access) ∧
    ∀ c : ErrCode, s.raise c = { s with err := (s.raise c).err, errcode := (s.raise c).errcode }

/-! ## Register accesses -/

/-- R184: a write of STATUS clears DONE by bit 4 and ERR with ERRCODE by bit 5, ignores every other
bit, and raises no error, whatever BUSY is; a completion after it sets DONE again. -/
def Obligations.StatusWriteClears : Prop :=
  ∀ (s : State) (v : Word),
    busWrite 64 0x008 v s =
      { s with
        done := s.done && !v.getLsbD 4
        err := s.err && !v.getLsbD 5
        errcode := if v.getLsbD 5 then .noError else s.errcode } ∧
    ∀ i : Instr, s.busy = true → latchedInstr s = some i →
      ∃ t, engineTurn (busWrite 64 0x008 v s) = .next t ∧ t.done = true

/-- R183: STATUS read while BUSY = 0, field by field, reserved bits 0, with no effect; and while
BUSY = 1 the BUSY, DONE, ERR and ERRCODE fields and the reserved bits, with no effect but the model's
count of free draws (log 6). -/
def Obligations.StatusReads : Prop :=
  ∀ (p : Params) (s : State),
    let v := (busRead p 64 0x008 s).1
    (s.busy = false → (busRead p 64 0x008 s).2 = s ∧ v.extractLsb' 0 2 = s.lstate.code ∧
      v.getLsbD 2 = s.salted ∧ v.extractLsb' 16 6 = s.plen) ∧
    v.getLsbD 3 = s.busy ∧ v.getLsbD 4 = s.done ∧ v.getLsbD 5 = s.err ∧ v.extractLsb' 6 2 = 0 ∧
    v.extractLsb' 8 4 = s.errcode.code ∧ v.extractLsb' 12 4 = 0 ∧ v.extractLsb' 22 42 = 0 ∧
    (busRead p 64 0x008 s).2 = { s with draws := (busRead p 64 0x008 s).2.draws }

/-- R73's exact part: while BUSY = 1, CTRL, ID, SALT_IN and DATA_IN read as they do otherwise, DIGEST
reads 0, and none of these reads changes anything. -/
def Obligations.BusyReadsStayExact : Prop :=
  ∀ (p : Params) (s : State), s.busy = true →
    busRead p 64 0x010 s = (flagWord s.errIe <<< 1 ||| flagWord s.doneIe, s) ∧
    busRead p 64 0x030 s = (idWord p, s) ∧
    ∀ k : Fin 8, busRead p 64 (0x040 + 8 * k.val) s = (0, s) ∧
      busRead p 64 (0x080 + 8 * k.val) s = (s.saltIn[k], s) ∧
      busRead p 64 (0x0C0 + 8 * k.val) s = (s.dataIn[k], s)

/-- R185 and R186: a write of CTRL sets the two enables, ignores the other bits and raises no error,
whatever BUSY is; a read gives the enables in bits 1 and 0 and zeros elsewhere. -/
def Obligations.CtrlReadsBack : Prop :=
  ∀ (p : Params) (s : State) (v : Word),
    busWrite 64 0x010 v s = { s with doneIe := v.getLsbD 0, errIe := v.getLsbD 1 } ∧
    busRead p 64 0x010 s = (flagWord s.errIe <<< 1 ||| flagWord s.doneIe, s) ∧
    busRead p 64 0x010 (busWrite 64 0x010 v s) = (v &&& 0x3, busWrite 64 0x010 v s)

/-- R42 with R184 and R186: irq is a function of the two flags and their enables; clearing both flags deasserts irq, enabling an interrupt whose flag is 1
asserts it at once, and with both enables 0 it is never asserted. -/
def Obligations.IrqIsALevel : Prop :=
  ∀ s : State,
    irq s = ((s.done && s.doneIe) || (s.err && s.errIe)) ∧
    irq (busWrite 64 0x008 0x30 s) = false ∧
    irq (busWrite 64 0x010 0x3 s) = (s.done || s.err) ∧
    (s.done = true → irq (busWrite 64 0x010 0x1 s) = true) ∧
    (s.err = true → irq (busWrite 64 0x010 0x2 s) = true) ∧
    irq (busWrite 64 0x010 0x0 s) = false

/-- R190, the test hook: BUSY_WRITE, then INVALID_STATE, then the write of the counter word alone. -/
def Obligations.CounterTestHook : Prop :=
  ∀ (s : State) (v : Word),
    (s.busy = true → busWrite 64 0x020 v s = s.raise .busyWrite ∧ busWrite 64 0x028 v s = s.raise .busyWrite) ∧
    (s.busy = false → s.lstate ≠ .accumulating →
      busWrite 64 0x020 v s = s.raise .invalidState ∧ busWrite 64 0x028 v s = s.raise .invalidState) ∧
    (s.busy = false → s.lstate = .accumulating →
      busWrite 64 0x020 v s = { s with bitcntLo := v } ∧ busWrite 64 0x028 v s = { s with bitcntHi := v })

/-- R189 and R187: while BUSY = 0 the counter words and NCOMP read as they are, with no effect; so the
hook's value reads back. -/
def Obligations.CountersReadBack : Prop :=
  ∀ (p : Params) (s : State), s.busy = false →
    busRead p 64 0x018 s = (s.ncomp, s) ∧ busRead p 64 0x020 s = (s.bitcntLo, s) ∧
    busRead p 64 0x028 s = (s.bitcntHi, s)

/-- R193 and R194: a staging word written while BUSY = 0 reads back, no other staging word and nothing
else changes; while BUSY = 1 the write is dropped with BUSY_WRITE. -/
def Obligations.StagingReadsBack : Prop :=
  ∀ (p : Params) (s : State) (v : Word) (k : Fin 8),
    (s.busy = false →
      (busRead p 64 (0x080 + 8 * k.val) (busWrite 64 (0x080 + 8 * k.val) v s)).1 = v ∧
      (busRead p 64 (0x0C0 + 8 * k.val) (busWrite 64 (0x0C0 + 8 * k.val) v s)).1 = v ∧
      busWrite 64 (0x080 + 8 * k.val) v s = { s with saltIn := s.saltIn.set k v } ∧
      busWrite 64 (0x0C0 + 8 * k.val) v s = { s with dataIn := s.dataIn.set k v }) ∧
    (s.busy = true →
      busWrite 64 (0x080 + 8 * k.val) v s = s.raise .busyWrite ∧
      busWrite 64 (0x0C0 + 8 * k.val) v s = s.raise .busyWrite)

/-- R192: DIGEST[k] reads CHAIN[k] when FINALIZED and not busy, and 0 in every other case. -/
def Obligations.DigestVisibility : Prop :=
  ∀ (p : Params) (s : State) (k : Fin 8),
    (s.lstate = .finalized → s.busy = false → busRead p 64 (0x040 + 8 * k.val) s = (s.chain[k], s)) ∧
    (s.lstate ≠ .finalized ∨ s.busy = true → busRead p 64 (0x040 + 8 * k.val) s = (0, s))

/-- R191: ID is constant: the two values of the spec. -/
def Obligations.IdIsConstant : Prop :=
  ∀ (p : Params) (s : State),
    (p.saltFinalBlocks = true → busRead p 64 0x030 s = (0x0000_0104_0008_4001, s)) ∧
    (p.saltFinalBlocks = false → busRead p 64 0x030 s = (0x0000_0004_0008_4001, s))

/-- R69 and R67: an admitted read of a mapped slot changes nothing of the block; what the model itself
counts is its free draws, and only while BUSY = 1 (log 6). R181 and R62: a read of CMD gives 0, BUSY or
not, whatever command is latched, so the word last written is not readable. -/
def Obligations.ReadsHaveNoSideEffects : Prop :=
  (∀ (p : Params) (s : State) (off : Nat), off < 256 → off % 8 = 0 → off ≠ 0x038 →
    (busRead p 64 off s).2 = { s with draws := (busRead p 64 off s).2.draws } ∧
    (s.busy = false → (busRead p 64 off s).2 = s)) ∧
  ∀ (p : Params) (s : State), busRead p 64 0x000 s = (0, s)

/-- R61: an access outside the window does not reach the block (the model's draw count apart, log 8). -/
def Obligations.OutsideWindowNotReached : Prop :=
  ∀ (p : Params) (s : State) (width off : Nat) (v : Word), 256 ≤ off →
    busWrite width off v s = s ∧ (busRead p width off s).2 = { s with draws := s.draws + 1 }

/-- R200: no host turn changes the hidden state CHAIN, SALT, BUF, ACC and COL, nor the latch except by an
accepted command; and no read, at any offset and width, depends on it, on the latch or on MATRIX, but for
CHAIN where it is the digest that may be read. R27, R38 and R188: PLEN, SALTED, LSTATE and NCOMP, which
the host can read, it cannot write. BITCNT is not among these: the host reads it and, through the test
hook, writes it (CounterTestHook).

The model's choice: the second clause compares two reads. Where a read is unspecified, of STATUS, NCOMP or
BITCNT while BUSY = 1 (R73) or at an offset of 256 and more, the two find equal values, whatever the latch
holds, only because the model takes a free value from the stream and the count of draws alone (log 6, and
log 8 outside the window); the spec does not say that such values do not depend on the hidden state. -/
def Obligations.HostCannotReachHiddenState : Prop :=
  (∀ s s' : State, nextTurn s = .host → step s = .next s' →
    s'.chain = s.chain ∧ s'.salt = s.salt ∧ s'.buf = s.buf ∧ s'.acc = s.acc ∧ s'.col = s.col ∧
    s'.plen = s.plen ∧ s'.salted = s.salted ∧ s'.lstate = s.lstate ∧ s'.ncomp = s.ncomp ∧
    ((s'.latchOp = s.latchOp ∧ s'.latchLen = s.latchLen) ∨ (s.busy = false ∧ s'.busy = true))) ∧
  ∀ (p : Params) (m : Fin 8 → Fin 1024 → Word) (s : State) (width off : Nat) (chain acc : Words8) (col : BitVec 10) (salt buf : Block)
    (op : BitVec 4) (len : BitVec 7),
    (s.lstate = .finalized → s.busy = false → chain = s.chain) →
    (busRead { p with matrix := m } width off
      { s with
        chain := chain
        acc := acc
        col := col
        salt := salt
        buf := buf
        latchOp := op
        latchLen := len }).1 = (busRead p width off s).1

/-! ## Compression -/

/-- R124: the mask is all ones for a set bit and zero for a clear one. -/
def Obligations.MaskIsAllOnesOrZero : Prop :=
  bitMask 1 = 0xFFFF_FFFF_FFFF_FFFF ∧ bitMask 0 = 0x0000_0000_0000_0000

/-- R127: each row of a compression is the sum, modulo 2^64, of the entries its set bits select, and
the order in which the columns are visited does not matter. -/
def Obligations.CompressionClosedForm : Prop :=
  ∀ (p : Params) (cin : Vector Byte 128),
    (∀ r : Fin 8, (accumulate p cin)[r].toNat =
      ((List.finRange 1024).map fun i => (cinBit cin i).toNat * (p.matrix r i).toNat).sum % 2 ^ 64) ∧
    ∀ l : List (Fin 1024), l.Perm (List.finRange 1024) →
      l.foldl (columnStep p cin) zeroWords = accumulate p cin

/-- R129: bit i of the compression input is bit (i mod 64) of chain word (i div 64) for i < 512, and
of the block's little-endian word ((i − 512) div 64), salt mixed in, above. -/
def Obligations.CompressionInputBits : Prop :=
  ∀ (chain : Words8) (b salt : Block) (apply : Bool) (i : Fin 1024),
    (∀ h : i.val < 512, cinBit (compressionInput chain (mixSalt apply salt b)) i =
      BitVec.ofBool ((chain[i.val / 64]'(by omega)).getLsbD (i.val % 64))) ∧
    (∀ h : 512 ≤ i.val, cinBit (compressionInput chain (mixSalt apply salt b)) i =
      BitVec.ofBool ((lew (mixSalt apply salt b) ⟨(i.val - 512) / 64, by omega⟩).getLsbD (i.val % 64)))

/-- R130's corner cases: a zero input gives zero, so a zero chain and a zero block keep it zero; one set bit selects its column; all ones gives the
row sums; two entries 2^63 wrap to 0; COMPRESS never writes BUF; a block equal to the salt is masked
to zero. -/
def Obligations.CompressionCornerCases : Prop :=
  (∀ (p : Params) (cin : Vector Byte 128), (∀ i, cinBit cin i = 0) → accumulate p cin = zeroWords) ∧
  (∀ (p : Params) (cin : Vector Byte 128) (i : Fin 1024), (∀ j, cinBit cin j = if j = i then 1 else 0) →
    ∀ r : Fin 8, (accumulate p cin)[r] = p.matrix r i) ∧
  (∀ (p : Params) (cin : Vector Byte 128), (∀ i, cinBit cin i = 1) →
    ∀ r : Fin 8, (accumulate p cin)[r] = ((List.finRange 1024).map (p.matrix r)).sum) ∧
  (∀ (p : Params) (cin : Vector Byte 128) (r : Fin 8) (i j : Fin 1024), i ≠ j →
    cinBit cin i = 1 → cinBit cin j = 1 → p.matrix r i = 0x8000_0000_0000_0000 →
    p.matrix r j = 0x8000_0000_0000_0000 →
    (∀ k, k ≠ i → k ≠ j → cinBit cin k = 1 → p.matrix r k = 0) → (accumulate p cin)[r] = 0) ∧
  (∀ p : Params, nextChain p zeroWords zeroBlock = zeroWords) ∧
  (∀ (p : Params) (s : State) (b : Block) (a : Bool), (s.compress p b a).buf = s.buf) ∧
  ∀ salt : Block, mixSalt true salt salt = zeroBlock

/-- R120, R122 and R125: a compression replaces the chain value by the accumulators' result on (chain,
block with the salt when it applies and SALTED = 1), counts itself modulo 2^64, and changes nothing
else the spec observes (ACC and COL apart: log 10). -/
def Obligations.CompressionFrame : Prop :=
  ∀ (p : Params) (s : State) (b : Block) (a : Bool),
    s.compress p b a =
      { s with
        chain := accumulate p (compressionInput s.chain
          (if a = true ∧ s.salted = true then tabulate 64 fun j => b[j] ^^^ s.salt[j] else b))
        acc := (s.compress p b a).acc
        col := (s.compress p b a).col
        ncomp := s.ncomp + 1 }

/-! ## The commands -/

/-- R142: NOP clears BUSY, sets DONE, and changes nothing else; it is legal in every LSTATE. -/
def Obligations.NopCompletes : Prop :=
  (∀ s : State, exec .nop s = .next { s with busy := false, done := true }) ∧
  decode 0x0 = .ok .nop ∧ ∀ l : LState, admission .nop l = none

/-- R143: INIT's writes and nothing else; it is legal in every LSTATE. -/
def Obligations.InitCompletes : Prop :=
  decode 0x1 = .ok .init ∧ (∀ l : LState, admission .init l = none) ∧
  ∀ s : State, exec .init s = .next
    { s with
      chain := Vector.replicate 8 0
      bitcntLo := 0
      bitcntHi := 0
      buf := Vector.replicate 64 0
      plen := 0
      salt := Vector.replicate 64 0
      salted := false
      ncomp := 0
      lstate := .accumulating
      busy := false
      done := true }

/-- R149 (with R144): INIT_SALTED completes in every lifecycle state: the salt is SALT_IN's 64
little-endian bytes, the chain is the compression of 64 zero bytes and the salt, the counter is 512,
nothing is pending, one compression is counted, and nothing but the hash state, BUSY and DONE changes. -/
def Obligations.InitSaltedCompletes : Prop :=
  ∀ s : State, ∃ t : State, exec .initSalted s = .next t ∧
    (∀ j : Fin 64, t.salt[j] = (s.saltIn[j.val / 8]'(by omega)).extractLsb' (8 * (j.val % 8)) 8) ∧
    (∀ r : Fin 8, t.chain[r].toNat =
      ((List.finRange 512).map fun j : Fin 512 =>
        ((t.salt[j.val / 8]'(by omega)).getLsbD (j.val % 8)).toNat *
          (Config.matrix r ⟨512 + j.val, by omega⟩).toNat).sum % 2 ^ 64) ∧
    t = { s with
      chain := t.chain
      acc := t.acc
      col := t.col
      salt := t.salt
      salted := true
      bitcntHi := 0
      bitcntLo := 512
      buf := t.buf
      plen := 0
      ncomp := 1
      lstate := .accumulating
      busy := false
      done := true }

/-- R152, no compression: UPDATE in ACCUMULATING whose data does not fill a block appends the first LEN
bytes of DATA_IN at PLEN, counts them, and changes nothing else, the stale bytes of BUF behind them
included; so LEN = 0 changes nothing but BUSY and DONE. -/
def Obligations.UpdateAppends : Prop :=
  ∀ (s : State) (len : BitVec 7), s.lstate = .accumulating → s.plen.toNat + len.toNat < 64 →
    ∃ t : State, exec (.update len) s = .next t ∧
      (∀ j : Fin 64, j.val < s.plen.toNat → t.buf[j] = s.buf[j]) ∧
      (∀ j : Fin 64, s.plen.toNat ≤ j.val → j.val < s.plen.toNat + len.toNat →
        t.buf[j] = (s.dataIn[(j.val - s.plen.toNat) / 8]'(by omega)).extractLsb'
          (8 * ((j.val - s.plen.toNat) % 8)) 8) ∧
      (∀ j : Fin 64, s.plen.toNat + len.toNat ≤ j.val → t.buf[j] = s.buf[j]) ∧
      t.plen.toNat = s.plen.toNat + len.toNat ∧
      t.bitcnt = s.bitcnt + BitVec.ofNat 128 (8 * len.toNat) ∧
      t = { s with buf := t.buf, plen := t.plen, bitcntLo := t.bitcntLo, bitcntHi := t.bitcntHi,
                   busy := false, done := true }

/-- R152 with R151, one compression: UPDATE in ACCUMULATING whose data fills a block compresses the
pending bytes followed by data, salted when SALTED = 1, keeps the data left over as the new pending
bytes, counts all of it, and changes nothing else (ACC and COL apart: log 10). -/
def Obligations.UpdateCompresses : Prop :=
  ∀ (s : State) (len : BitVec 7), s.lstate = .accumulating → len.toNat ≤ 64 →
    64 ≤ s.plen.toNat + len.toNat →
    ∃ t : State, exec (.update len) s = .next t ∧
      t.chain = nextChain Config.params s.chain
        (mixSalt s.salted s.salt (blockOf (s.pendingBytes ++ dataBytes len s))) ∧
      (∀ j : Fin 64, j.val < s.plen.toNat + len.toNat - 64 →
        t.buf[j] = (dataBytes len s).getD (64 - s.plen.toNat + j.val) 0) ∧
      t.plen.toNat = s.plen.toNat + len.toNat - 64 ∧
      t.ncomp = s.ncomp + 1 ∧
      t.bitcnt = s.bitcnt + BitVec.ofNat 128 (8 * len.toNat) ∧
      t = { s with chain := t.chain, acc := t.acc, col := t.col, ncomp := t.ncomp, buf := t.buf,
                   plen := t.plen, bitcntLo := t.bitcntLo, bitcntHi := t.bitcntHi, busy := false, done := true }

/-- R153, R154 and R155: FINAL in ACCUMULATING compresses the pending bytes followed by the padding,
salted when SALTED = 1 and SALT_FINAL_BLOCKS is on; one compression when PLEN < 48 and two otherwise;
it ends FINALIZED with nothing pending; the counter, the salt and everything else are unchanged. -/
def Obligations.FinalCompletes : Prop :=
  ∀ s : State, s.lstate = .accumulating →
    ∃ t : State, exec .final s = .next t ∧
      t.chain = chainOf Config.params (Config.saltFinalBlocks && s.salted) s.salt s.chain
        (s.pendingBytes ++ paddingBytes s.plen.toNat s.bitcntLo s.bitcntHi) ∧
      t.ncomp = s.ncomp + (if s.plen.toNat < 48 then 1 else 2) ∧
      t = { s with chain := t.chain, acc := t.acc, col := t.col, ncomp := t.ncomp, buf := t.buf,
                   plen := 0, lstate := .finalized, busy := false, done := true }

/-- The model's own (log 3): a command that acceptance would not have admitted, reaching its completion
step, is turned away with the error R220 gives its form and none of its effect. -/
def Obligations.UnadmittedCompletionTurnedAway : Prop :=
  ∀ s : State,
    (∀ len : BitVec 7, 64 < len.toNat → exec (.update len) s = .next
      { s with err := true, errcode := if s.err then s.errcode else .badLen, busy := false, done := true }) ∧
    (s.lstate ≠ .accumulating →
      (∀ len : BitVec 7, len.toNat ≤ 64 → exec (.update len) s = .next
        { s with err := true, errcode := if s.err then s.errcode else .invalidState, busy := false, done := true }) ∧
      exec .final s = .next
        { s with err := true, errcode := if s.err then s.errcode else .invalidState, busy := false, done := true })

/-- R158: the lifecycle state each command leaves, in each lifecycle state, for every command that
acceptance admits; the two it rejects outside ACCUMULATING leave it as it was; reset gives CREATED. -/
def Obligations.LifecycleTransitions : Prop :=
  ∀ s : State,
    (resetTurn s).lstate = .created ∧
    (∃ t, exec .nop s = .next t ∧ t.lstate = s.lstate) ∧
    (∃ t, exec .init s = .next t ∧ t.lstate = .accumulating) ∧
    (∃ t, exec .initSalted s = .next t ∧ t.lstate = .accumulating) ∧
    (∀ len : BitVec 7, len.toNat ≤ 64 → s.lstate = .accumulating →
      ∃ t, exec (.update len) s = .next t ∧ t.lstate = .accumulating) ∧
    (s.lstate = .accumulating → ∃ t, exec .final s = .next t ∧ t.lstate = .finalized) ∧
    (s.lstate ≠ .accumulating → s.busy = false → ∀ i : Instr, i.wellFormed = true →
      (opcode i = 3 ∨ opcode i = 4) →
      (busWrite 64 0 (encode i) s).lstate = s.lstate ∧ (busWrite 64 0 (encode i) s).busy = false ∧
      (s.err = false → (busWrite 64 0 (encode i) s).errcode = .invalidState))

/-! ## The absorption path and the digest -/

/-- R145: CountAdd(n) adds 8n, itself taken modulo 2^64, to the 128-bit counter, carry included, modulo
2^128, and changes nothing else. -/
def Obligations.CounterAddsWithCarry : Prop :=
  ∀ (s : State) (n : Nat),
    (s.countAdd n).bitcnt = s.bitcnt + BitVec.ofNat 128 (8 * n % 2 ^ 64) ∧
    s.countAdd n = { s with bitcntLo := (s.countAdd n).bitcntLo, bitcntHi := (s.countAdd n).bitcntHi }

/-- R147: absorbing n > 0 bytes at PLEN = r performs (r + n) div 64 compressions and leaves
PLEN = (r + n) mod 64; absorbing nothing performs none. -/
def Obligations.AbsorbCompressionCount : Prop :=
  ∀ (p : Params) (d : List Byte) (s : State),
    (d ≠ [] →
      (s.absorb p d).ncomp = s.ncomp + BitVec.ofNat 64 ((s.plen.toNat + d.length) / 64) ∧
      (s.absorb p d).plen.toNat = (s.plen.toNat + d.length) % 64) ∧
    (d = [] → (s.absorb p d).ncomp = s.ncomp)

/-- R148: however the data is split, what has been absorbed is its concatenation: the compressions, the
pending bytes and the counter depend on nothing else. It starts empty after INIT and with the zero
block after INIT_SALTED. (A chunk is below 2^61 bytes, 90_conflicts C4; an UPDATE carries at most 64.) -/
def Obligations.ChunkingInvariance : Prop :=
  (∀ (p : Params) (s : State), Absorbed p [] s.initHash) ∧
  (∀ (p : Params) (s : State), Absorbed p (List.replicate 64 0) (s.initSaltedHash p)) ∧
  ∀ (p : Params) (t : List Byte) (chunks : List (List Byte)) (s : State),
    (∀ c ∈ chunks, 8 * c.length < 2 ^ 64) → Absorbed p t s →
    Absorbed p (t ++ chunks.flatten) (chunks.foldl (fun s c => s.absorb p c) s)

/-- R153, R157 and R160: the digest of a whole message, whatever its chunks, salted or not, is the chain
of its blocks with the padding that encodes its length. R161: the number of compressions. -/
def Obligations.MessageDigest : Prop :=
  ∀ (p : Params) (s : State) (chunks : List (List Byte)), (∀ c ∈ chunks, c.length ≤ 64) →
    let m := chunks.flatten
    let pad := fun total : Nat => paddingBytes (m.length % 64)
      (BitVec.ofNat 64 (8 * total)) (BitVec.ofNat 64 (8 * total / 2 ^ 64))
    let plain := (chunks.foldl (fun s c => s.absorb p c) s.initHash).finalHash p
    let salted := (chunks.foldl (fun s c => s.absorb p c) (s.initSaltedHash p)).finalHash p
    plain.chain = chainOf p false zeroBlock zeroWords (m ++ pad m.length) ∧
    plain.ncomp = BitVec.ofNat 64 (m.length / 64 + if m.length % 64 < 48 then 1 else 2) ∧
    salted.chain = chainOf p (p.saltFinalBlocks) (saltBytes s)
      (chainOf p true (saltBytes s) zeroWords (List.replicate 64 0 ++ m))
      (m.drop (64 * (m.length / 64)) ++ pad (64 + m.length)) ∧
    salted.ncomp = BitVec.ofNat 64 (1 + m.length / 64 + if m.length % 64 < 48 then 1 else 2)

/-! ## Reset, invariants and whole-machine rules -/

/-- R240: the values after reset, and what the host then sees. -/
def Obligations.ResetValues : Prop :=
  let s := State.reset
  s.chain = Vector.replicate 8 0 ∧ s.acc = Vector.replicate 8 0 ∧ s.col = 0 ∧ s.salt = Vector.replicate 64 0 ∧
  s.buf = Vector.replicate 64 0 ∧ s.bitcntLo = 0 ∧ s.bitcntHi = 0 ∧ s.ncomp = 0 ∧
  s.saltIn = Vector.replicate 8 0 ∧ s.dataIn = Vector.replicate 8 0 ∧ s.plen = 0 ∧ s.salted = false ∧
  s.busy = false ∧ s.done = false ∧ s.err = false ∧ s.errcode.code = 0 ∧ s.doneIe = false ∧ s.errIe = false ∧
  s.latchOp = 0 ∧ s.latchLen = 0 ∧ s.lstate = .created ∧ irq s = false ∧
  ∀ p : Params, (busRead p 64 0x008 s).1 = 0 ∧ (busRead p 64 0x010 s).1 = 0 ∧
    ∀ k : Fin 8, (busRead p 64 (0x040 + 8 * k.val) s).1 = 0

/-- R241: a reset turn, BUSY or not, gives every field of the engine its reset value: none of the
latched command's effects appear. (The host's program, its reads and arrays and the place in the free
draws stay: log 12.) -/
def Obligations.ResetAbandonsCommand : Prop :=
  ∀ (s : State) (rest : List Turn), s.turns = .reset :: rest →
    step s = .next { State.reset with
      stream := s.stream, draws := s.draws, prog := s.prog, reads := s.reads, arrays := s.arrays,
      turns := rest }

/-- The state right after reset meets the invariant. -/
def Obligations.ResetMeetsInvariant : Prop := Inv State.reset

/-- R43 with R33 and R141's remark on the latch: every step, of whatever agent, from every state that
meets the invariant, keeps it. -/
def Obligations.StepKeepsInvariant : Prop :=
  ∀ s s' : State, Inv s → step s = .next s' → Inv s'

/-- R75 and R247: a host turn taken while BUSY = 1 changes none of what the latched command reads: of
the block, only DONE, ERR, ERRCODE and the enables can change. -/
def Obligations.BusyFreezesOperands : Prop :=
  ∀ s s' : State, s.busy = true → nextTurn s = .host → step s = .next s' →
    s' = { s with done := s'.done, err := s'.err, errcode := s'.errcode, doneIe := s'.doneIe, errIe := s'.errIe,
                  draws := s'.draws, prog := s'.prog, reads := s'.reads, arrays := s'.arrays,
                  turns := s'.turns }

/-- R159: in FINALIZED, what FINAL left stays, under every step, until an INIT or INIT_SALTED completes
or reset comes. -/
def Obligations.FinalizedStateIsFrozen : Prop :=
  ∀ s s' : State, s.lstate = .finalized → step s = .next s' →
    (s'.lstate = .finalized ∧ s'.chain = s.chain ∧ s'.bitcntLo = s.bitcntLo ∧ s'.bitcntHi = s.bitcntHi ∧
      s'.salt = s.salt ∧ s'.salted = s.salted ∧ s'.plen = s.plen ∧ s'.buf = s.buf ∧ s'.ncomp = s.ncomp) ∨
    nextTurn s = .reset ∨
    (nextTurn s = .engine ∧ s.busy = true ∧ (latchedInstr s = some .init ∨ latchedInstr s = some .initSalted))

/-- R44: states that agree but for ACC, COL and the stale bytes of BUF take steps that agree but for
these, so no run of any program tells them apart.

The model's choice: for a host read that is unspecified, while BUSY = 1 (R73) or outside the window, the
two steps bind equal values only because the model takes a free value from the stream and the count of
draws alone (log 6, and log 8 outside the window), and the two states have these in common. -/
def Obligations.StaleBytesUnobservable : Prop :=
  ∀ s t : State, SameUpToStale s t → SameOutcome (step s) (step t)

/-- R77: an access to or a step of one engine leaves every other engine as it was, and a write does to
the engine it reaches what the window says. Which engine an address reaches is the model's choice where
windows overlap (log 15), and so is that each engine has a host program of its own (log 21). -/
def Obligations.EnginesAreIndependent : Prop :=
  ∀ pl : Platform,
    (∀ (i j : Nat) (pl' : Platform), j ≠ i → pl.step i = .next pl' → pl'.engines[j]? = pl.engines[j]?) ∧
    (∀ (width addr j : Nat) (v : Word), pl.route addr ≠ some j →
      (pl.write width addr v).engines[j]? = pl.engines[j]?) ∧
    (∀ (width addr i j : Nat) (w : Word) (pl' : Platform), pl.route addr = some i → j ≠ i →
      pl.read width addr = some (w, pl') → pl'.engines[j]? = pl.engines[j]?) ∧
    ∀ (width addr i : Nat) (v : Word) (s : State), pl.route addr = some i → pl.engines[i]? = some s →
      (pl.write width addr v).engines[i]? = some (busWrite width (addr - Config.engineBase i) v s)

/-! ## Host programs -/

/-- R98 with R251: with no turn listed, a host that waits on a latched command waits two steps: the
engine completes the command, and the poll then ends the wait with `s` bound to STATUS as it then is. The
turn taken when none is listed is the model's choice (log 1). -/
def Obligations.WaitEnds : Prop :=
  ∀ (s : State) (rest : List HostLine), Inv s → s.busy = true → s.turns = [] → s.prog = .wait :: rest →
    ∃ t : State, Host.Core.run core 2 s = .next t ∧ t.busy = false ∧ t.done = true ∧ t.prog = rest ∧
      lookupName "s" t.reads = some (statusIdle t)

/-- R96: what the lines do on the host's turn: `rd` binds the value read to its name and no other; `wr` is
the bus write; a true assertion has no effect and a false one makes the program fail, as the model's fault
(log 5). R98: `wait` reads STATUS to the name `s`, again in the next turn when bit 3 of it was 1.
R101: read_digest's assignment lays the bytes of a name's word into one eight-byte place of an array,
little-endian, and changes no other byte and no other array. -/
def Obligations.HostLines : Prop :=
  ∀ (p : Params) (s : State) (rest : List HostLine) (width off : Nat) (name : String) (v : Word),
    (s.prog = .rd width off name :: rest → ∃ t, hostTurn p s = .next t ∧ t.prog = rest ∧
      lookupName name t.reads = some (busRead p width off s).1 ∧
      (∀ other : String, other ≠ name → lookupName other t.reads = lookupName other s.reads) ∧
      t = { (busRead p width off s).2 with prog := t.prog, reads := t.reads }) ∧
    (s.prog = .wr width off v :: rest → hostTurn p s = .next { busWrite width off v s with prog := rest }) ∧
    (s.prog = .expect name v :: rest → lookupName name s.reads = some v →
      hostTurn p s = .next { s with prog := rest }) ∧
    (s.prog = .wait :: rest → ∃ t, hostTurn p s = .next t ∧
      lookupName "s" t.reads = some (busRead p 64 0x008 s).1 ∧
      (∀ other : String, other ≠ "s" → lookupName other t.reads = lookupName other s.reads) ∧
      t.prog = (if (busRead p 64 0x008 s).1.getLsbD 3 = true then .wait :: rest else rest) ∧
      t = { (busRead p 64 0x008 s).2 with prog := t.prog, reads := t.reads }) ∧
    (∀ (out : String) (k : Fin 8), s.prog = .lay out k name :: rest → lookupName name s.reads = some v →
      ∃ t, hostTurn p s = .next t ∧
        (∃ b : Block, lookupName out t.arrays = some b ∧
          ∀ j : Fin 64, b[j] = if j.val / 8 = k.val then v.extractLsb' (8 * (j.val % 8)) 8 else (arrayOf out s)[j]) ∧
        (∀ other : String, other ≠ out → lookupName other t.arrays = lookupName other s.arrays) ∧
        t = { s with prog := rest, arrays := t.arrays }) ∧
    ∀ found : Word, s.prog = .expect name v :: rest → lookupName name s.reads = some found → found ≠ v →
      hostTurn p s = .fault (.expectFailed name found v)

/-- R99 and R92: the eight lines of load_data, run on an engine that is not busy, put the bytes where
UPDATE takes them from, and change nothing else. (No turn listed: log 1.) -/
def Obligations.LoadDataPlacesBytes : Prop :=
  ∀ (s : State) (bs : List Byte) (rest : List HostLine), bs.length ≤ 64 → s.busy = false → s.turns = [] →
    s.prog = loadData bs ++ rest →
    ∃ t : State, Host.Core.run core 8 s = .next t ∧ t = { s with dataIn := t.dataIn, prog := rest } ∧
      dataBytes (BitVec.ofNat 7 bs.length) t = bs

/-- R100 and R92: the eight lines of load_salt put the salt where INIT_SALTED takes it from. (No turn
listed: log 1.) -/
def Obligations.LoadSaltPlacesBytes : Prop :=
  ∀ (s : State) (salt : Block) (rest : List HostLine), s.busy = false → s.turns = [] →
    s.prog = loadSalt salt ++ rest →
    ∃ t : State, Host.Core.run core 8 s = .next t ∧ t = { s with saltIn := t.saltIn, prog := rest } ∧
      saltBytes t = salt

/-- R102: update_bytes splits its data into chunks of at most 64 bytes whose concatenation is the data, and
issues nothing for no data. R102 lets the data be split in any way; that no chunk is empty is the model's
splitting (log 19). -/
def Obligations.UpdateBytesSplits : Prop :=
  ∀ m : List Byte, (chunks64 m.length m).flatten = m ∧
    (∀ c ∈ chunks64 m.length m, c.length ≤ 64 ∧ c ≠ []) ∧ (m = [] → updateBytes m = [])

/-- R103, R101 and R156: the host program `hash M -> OUT`, run on an engine that is not busy and with no
turn listed (log 1), ends with the 64 bytes of the digest of M in the array OUT and its last word in `w`:
the chain value after the blocks of M, split as the model splits them (log 19), followed by its padding. -/
def Obligations.HashProgramComputesDigest : Prop :=
  ∀ (m : List Byte) (out : String) (s : State), s.busy = false → s.turns = [] → s.prog = hashLines m out →
    let digest := chainOf Config.params false zeroBlock zeroWords
      (m ++ paddingBytes (m.length % 64) (BitVec.ofNat 64 (8 * m.length)) (BitVec.ofNat 64 (8 * m.length / 2 ^ 64)))
    ∃ (n : Nat) (t : State), Host.Core.run core n s = .next t ∧ t.ended ∧
      lookupName out t.arrays = some (digestBytes digest) ∧ lookupName "w" t.reads = some digest[7]

/-- R104, R101 and R153: the host program `hash_salted M, S -> OUT`, run on an engine that is not busy and
with no turn listed (log 1), ends with the 64 bytes of the salted digest of M in the array OUT and its last
word in `w`, M split as the model splits it (log 19): the chain value after the zero block and the whole blocks of M, all
salted with S, and then the rest of M with the padding, whose length counts the zero block, salted when
SALT_FINAL_BLOCKS is on. -/
def Obligations.HashSaltedProgramComputesDigest : Prop :=
  ∀ (m : List Byte) (salt : Block) (out : String) (s : State), s.busy = false → s.turns = [] →
    s.prog = hashSaltedLines m salt out →
    let digest := chainOf Config.params Config.saltFinalBlocks salt
      (chainOf Config.params true salt zeroWords (List.replicate 64 0 ++ m))
      (m.drop (64 * (m.length / 64)) ++ paddingBytes (m.length % 64)
        (BitVec.ofNat 64 (8 * (64 + m.length))) (BitVec.ofNat 64 (8 * (64 + m.length) / 2 ^ 64)))
    ∃ (n : Nat) (t : State), Host.Core.run core n s = .next t ∧ t.ended ∧
      lookupName out t.arrays = some (digestBytes digest) ∧ lookupName "w" t.reads = some digest[7]
end

