-- ==== Sys2Proof/Laws/Bytes.lean ====
section
/-! SUPPORT. What the byte helpers give, byte by byte and bit by bit. -/

namespace Sys2Proof.Machine

@[simp] theorem getElem_writeBytes (b : Block) (start : Nat) (d : List Byte) (j : Nat) (h : j < 64) :
    (writeBytes b start d)[j] = if start ≤ j ∧ j < start + d.length then d.getD (j - start) 0 else b[j] := by
  simp [writeBytes]

@[simp] theorem getElem_fillBytes (b : Block) (lo hi : Nat) (v : Byte) (j : Nat) (h : j < 64) :
    (fillBytes b lo hi v)[j] = if lo ≤ j ∧ j ≤ hi then v else b[j] := by
  simp [fillBytes]

@[simp] theorem getElem_blockOf (d : List Byte) (j : Nat) (h : j < 64) :
    (blockOf d)[j] = d.getD j 0 := by
  simp [blockOf]

@[simp] theorem getElem_zeroBlock (j : Nat) (h : j < 64) : zeroBlock[j] = 0#8 := by
  simp [zeroBlock]

@[simp] theorem getElem_zeroWords (j : Nat) (h : j < 8) : zeroWords[j] = 0#64 := by
  simp [zeroWords]

@[simp] theorem getElem_byteImage (ws : Words8) (j : Nat) (h : j < 64) :
    (byteImage ws)[j] = wordByte (ws[j / 8]'(by omega)) (j % 8) := by
  simp [byteImage]

@[simp] theorem length_le64enc (w : Word) : (le64enc w).length = 8 := by
  simp [le64enc]

theorem getD_le64enc (w : Word) (j : Nat) (h : j < 8) : (le64enc w).getD j 0 = wordByte w j := by
  simp [le64enc, List.getD_eq_getElem?_getD, h]

theorem getLsbD_wordByte (w : Word) (j i : Nat) : (wordByte w j).getLsbD i = (decide (i < 8) && w.getLsbD (8 * j + i)) := by
  simp [wordByte]

/-- LE64dec as a number: the bytes are its digits in base 256 (R14). -/
theorem toNat_le64dec (bs : List Byte) :
    (le64dec bs).toNat =
      (bs.getD 0 0).toNat + 256 * ((bs.getD 1 0).toNat + 256 * ((bs.getD 2 0).toNat + 256 * ((bs.getD 3 0).toNat
        + 256 * ((bs.getD 4 0).toNat + 256 * ((bs.getD 5 0).toNat + 256 * ((bs.getD 6 0).toNat
        + 256 * (bs.getD 7 0).toNat)))))) := by
  have e : List.range 8 = [0, 1, 2, 3, 4, 5, 6, 7] := rfl
  have z : BitVec.toNat (0 : Word) = 0 := rfl
  simp only [le64dec, e, List.map_cons, List.map_nil, List.sum_cons, List.sum_nil, BitVec.toNat_add,
    BitVec.toNat_shiftLeft, BitVec.toNat_setWidth, Nat.shiftLeft_eq, z]
  have b0 := (bs.getD 0 0).isLt
  have b1 := (bs.getD 1 0).isLt
  have b2 := (bs.getD 2 0).isLt
  have b3 := (bs.getD 3 0).isLt
  have b4 := (bs.getD 4 0).isLt
  have b5 := (bs.getD 5 0).isLt
  have b6 := (bs.getD 6 0).isLt
  have b7 := (bs.getD 7 0).isLt
  simp (disch := omega) only [Nat.mod_eq_of_lt]
  ring

/-- Bit `m` of the low digit of a number in base 256. -/
theorem testBit_low_digit (b : Byte) (rest m : Nat) (hm : m < 8) :
    (b.toNat + 256 * rest).testBit m = b.getLsbD m := by
  have := Nat.testBit_two_pow_mul_add rest (i := 8) b.isLt m
  simp only [hm, if_true] at this
  rw [Nat.add_comm, show (256 : Nat) = 2 ^ 8 from rfl, this]
  rfl

/-- Bit `8 + m` of a number in base 256 is bit `m` of the number without its low digit. -/
theorem testBit_drop_digit (b : Byte) (rest m : Nat) :
    (b.toNat + 256 * rest).testBit (m + 8) = rest.testBit m := by
  have := Nat.testBit_two_pow_mul_add rest (i := 8) b.isLt (m + 8)
  rw [Nat.add_comm, show (256 : Nat) = 2 ^ 8 from rfl, this]
  simp

/-- LE64dec bit by bit: bit `8j + m` is bit `m` of byte `j` (R14). -/
theorem getLsbD_le64dec (bs : List Byte) (j m : Nat) (hj : j < 8) (hm : m < 8) :
    (le64dec bs).getLsbD (8 * j + m) = (bs.getD j 0).getLsbD m := by
  rw [← BitVec.testBit_toNat, toNat_le64dec]
  have e : 8 * j + m = m + 8 * j := by omega
  rw [e]
  interval_cases j
  · exact testBit_low_digit _ _ _ hm
  · exact (testBit_drop_digit _ _ m).trans (testBit_low_digit _ _ _ hm)
  · exact (testBit_drop_digit _ _ (m + 8)).trans ((testBit_drop_digit _ _ m).trans (testBit_low_digit _ _ _ hm))
  · exact (testBit_drop_digit _ _ (m + 16)).trans ((testBit_drop_digit _ _ (m + 8)).trans
      ((testBit_drop_digit _ _ m).trans (testBit_low_digit _ _ _ hm)))
  · exact (testBit_drop_digit _ _ (m + 24)).trans ((testBit_drop_digit _ _ (m + 16)).trans
      ((testBit_drop_digit _ _ (m + 8)).trans ((testBit_drop_digit _ _ m).trans (testBit_low_digit _ _ _ hm))))
  · exact (testBit_drop_digit _ _ (m + 32)).trans ((testBit_drop_digit _ _ (m + 24)).trans
      ((testBit_drop_digit _ _ (m + 16)).trans ((testBit_drop_digit _ _ (m + 8)).trans
      ((testBit_drop_digit _ _ m).trans (testBit_low_digit _ _ _ hm)))))
  · exact (testBit_drop_digit _ _ (m + 40)).trans ((testBit_drop_digit _ _ (m + 32)).trans
      ((testBit_drop_digit _ _ (m + 24)).trans ((testBit_drop_digit _ _ (m + 16)).trans
      ((testBit_drop_digit _ _ (m + 8)).trans ((testBit_drop_digit _ _ m).trans (testBit_low_digit _ _ _ hm))))))
  · refine (testBit_drop_digit _ _ (m + 48)).trans ((testBit_drop_digit _ _ (m + 40)).trans
      ((testBit_drop_digit _ _ (m + 32)).trans ((testBit_drop_digit _ _ (m + 24)).trans
      ((testBit_drop_digit _ _ (m + 16)).trans ((testBit_drop_digit _ _ (m + 8)).trans
      ((testBit_drop_digit _ _ m).trans ?_))))))
    exact BitVec.testBit_toNat _

/-- LEW bit by bit: bit `i` of word `k` is bit `i mod 8` of byte `8k + i div 8` (R14). -/
theorem getLsbD_lew (b : Block) (k : Fin 8) (i : Nat) (hi : i < 64) :
    (lew b k).getLsbD i = (b[8 * k.val + i / 8]'(by omega)).getLsbD (i % 8) := by
  have hk := k.isLt
  have e : i = 8 * (i / 8) + i % 8 := by omega
  have hd : ((b.toList.drop (8 * k.val)).take 8).getD (i / 8) 0 = b[8 * k.val + i / 8]'(by omega) := by
    rw [List.getD_eq_getElem?_getD, List.getElem?_take_of_lt (by omega), List.getElem?_drop,
      List.getElem?_eq_getElem (by simp; omega)]
    simp
  conv => lhs; rw [e]
  rw [lew, getLsbD_le64dec _ _ _ (by omega) (by omega), hd]

/-- The byte lanes undo the little-endian words: byte `j` of word `k` of a block is its byte `8k + j`. -/
theorem wordByte_lew (b : Block) (k : Fin 8) (j : Nat) (hj : j < 8) :
    wordByte (lew b k) j = b[8 * k.val + j]'(by omega) := by
  ext i hi
  have hk := k.isLt
  rw [BitVec.getElem_eq_testBit_toNat, BitVec.testBit_toNat, getLsbD_wordByte, getLsbD_lew _ _ _ (by omega)]
  have e1 : (8 * j + i) / 8 = j := by omega
  have e2 : (8 * j + i) % 8 = i := by omega
  simp [hi, e1, e2, BitVec.getLsbD_eq_getElem]

/-- The byte image of a block's eight words is the block (R64, R99). -/
theorem byteImage_wordsOfBlock (b : Block) : byteImage (wordsOfBlock b) = b := by
  unfold wordsOfBlock
  ext1 j hj
  have := wordByte_lew b ⟨j / 8, by omega⟩ (j % 8) (by omega)
  simp only [getElem_byteImage, getElem_tabulate, this]
  congr 1
  omega

/-- Word `k` of the byte image of eight words is word `k` (R64). -/
theorem lew_byteImage (ws : Words8) (k : Fin 8) : lew (byteImage ws) k = ws[k] := by
  ext i hi
  have hk := k.isLt
  rw [← BitVec.getLsbD_eq_getElem hi, ← BitVec.getLsbD_eq_getElem hi, getLsbD_lew _ _ _ hi]
  simp only [getElem_byteImage, getLsbD_wordByte]
  have e1 : (8 * k.val + i / 8) / 8 = k.val := by omega
  have e2 : 8 * (i / 8 % 8) + i % 8 = i := by omega
  simp [e1, e2, Nat.mod_lt]

end Sys2Proof.Machine
end

