-- ==== Sys2Proof/Laws/Compression.lean ====
section
/-! SUPPORT. The compression row by row. -/

namespace Sys2Proof.Machine

@[simp] theorem params_matrix : Config.params.matrix = Config.matrix := rfl

@[simp] theorem params_saltFinalBlocks : Config.params.saltFinalBlocks = Config.saltFinalBlocks := rfl

@[simp] theorem getElem_mixSalt (apply : Bool) (salt b : Block) (j : Nat) (h : j < 64) :
    (mixSalt apply salt b)[j] = b[j] ^^^ (if apply then salt[j] else 0#8) := by
  simp [mixSalt]

theorem getElem_compressionInput_chain (chain : Words8) (b : Block) (j : Nat) (h : j < 64) :
    (compressionInput chain b)[j]'(by omega) = (byteImage chain)[j] := by
  simp only [compressionInput, getElem_tabulate, h, dite_true]

theorem getElem_compressionInput_block (chain : Words8) (b : Block) (j : Nat) (h : j < 64) :
    (compressionInput chain b)[64 + j]'(by omega) = b[j] := by
  have h1 : ¬ 64 + j < 64 := by omega
  have h2 : 64 + j - 64 = j := by omega
  simp only [compressionInput, getElem_tabulate, h1, dite_false, h2]

/-- Masking a word by a bit keeps it or clears it: a conditional without a branch (R124). -/
theorem bitMask_and (b : BitVec 1) (w : Word) : bitMask b &&& w = if b = 1#1 then w else 0#64 := by
  have h : b = 0#1 ∨ b = 1#1 := by revert b; decide
  rcases h with rfl | rfl
  · rw [if_neg (by decide), show bitMask 0#1 = 0#64 from by decide]; exact BitVec.zero_and
  · rw [if_pos rfl, show bitMask 1#1 = BitVec.allOnes 64 from by decide]; exact BitVec.allOnes_and

@[simp] theorem getElem_columnStep (p : Params) (cin : Vector Byte 128) (acc : Words8) (i : Fin 1024)
    (r : Nat) (h : r < 8) :
    (columnStep p cin acc i)[r] = acc[r] + (if cinBit cin i = 1#1 then p.matrix ⟨r, h⟩ i else 0#64) := by
  simp [columnStep, bitMask_and]

/-- The rows do not mix: each row of the fold over columns is a fold over that row alone (R126). -/
theorem getElem_foldl_columnStep (p : Params) (cin : Vector Byte 128) (l : List (Fin 1024)) (acc : Words8)
    (r : Nat) (h : r < 8) :
    (l.foldl (columnStep p cin) acc)[r] =
      acc[r] + (l.map fun i => if cinBit cin i = 1#1 then p.matrix ⟨r, h⟩ i else 0#64).sum := by
  induction l generalizing acc with
  | nil => simp
  | cons i l ih =>
    simp only [List.foldl_cons, ih, getElem_columnStep, List.map_cons, List.sum_cons]
    exact BitVec.add_assoc _ _ _

/-- A fold over columns from zero, row by row. -/
theorem getElem_foldl_columnStep_zero (p : Params) (cin : Vector Byte 128) (l : List (Fin 1024))
    (r : Nat) (h : r < 8) :
    (l.foldl (columnStep p cin) zeroWords)[r] =
      (l.map fun i => if cinBit cin i = 1#1 then p.matrix ⟨r, h⟩ i else 0#64).sum := by
  rw [getElem_foldl_columnStep, getElem_zeroWords]
  exact BitVec.zero_add _

/-- Row `r` of the accumulator array after a compression: the sum, modulo 2^64, of the entries its
set bits select (R127). -/
theorem getElem_accumulate (p : Params) (cin : Vector Byte 128) (r : Nat) (h : r < 8) :
    (accumulate p cin)[r] =
      ((List.finRange 1024).map fun i => if cinBit cin i = 1#1 then p.matrix ⟨r, h⟩ i else 0#64).sum := by
  unfold accumulate
  exact getElem_foldl_columnStep_zero p cin (List.finRange 1024) r h

end Sys2Proof.Machine
end

