-- ==== Sys2Proof/Laws/State.lean ====
section
/-! SUPPORT. One lemma per field per named update of the state: what the field holds after it. -/

namespace Sys2Proof.Machine

variable (s : State)

@[simp] theorem State.finish_chain : (s.finish).chain = s.chain := rfl
@[simp] theorem State.finish_acc : (s.finish).acc = s.acc := rfl
@[simp] theorem State.finish_col : (s.finish).col = s.col := rfl
@[simp] theorem State.finish_salt : (s.finish).salt = s.salt := rfl
@[simp] theorem State.finish_salted : (s.finish).salted = s.salted := rfl
@[simp] theorem State.finish_bitcntLo : (s.finish).bitcntLo = s.bitcntLo := rfl
@[simp] theorem State.finish_bitcntHi : (s.finish).bitcntHi = s.bitcntHi := rfl
@[simp] theorem State.finish_buf : (s.finish).buf = s.buf := rfl
@[simp] theorem State.finish_plen : (s.finish).plen = s.plen := rfl
@[simp] theorem State.finish_lstate : (s.finish).lstate = s.lstate := rfl
@[simp] theorem State.finish_busy : (s.finish).busy = false := rfl
@[simp] theorem State.finish_latchOp : (s.finish).latchOp = s.latchOp := rfl
@[simp] theorem State.finish_latchLen : (s.finish).latchLen = s.latchLen := rfl
@[simp] theorem State.finish_done : (s.finish).done = true := rfl
@[simp] theorem State.finish_err : (s.finish).err = s.err := rfl
@[simp] theorem State.finish_errcode : (s.finish).errcode = s.errcode := rfl
@[simp] theorem State.finish_doneIe : (s.finish).doneIe = s.doneIe := rfl
@[simp] theorem State.finish_errIe : (s.finish).errIe = s.errIe := rfl
@[simp] theorem State.finish_ncomp : (s.finish).ncomp = s.ncomp := rfl
@[simp] theorem State.finish_saltIn : (s.finish).saltIn = s.saltIn := rfl
@[simp] theorem State.finish_dataIn : (s.finish).dataIn = s.dataIn := rfl
@[simp] theorem State.finish_stream : (s.finish).stream = s.stream := rfl
@[simp] theorem State.finish_draws : (s.finish).draws = s.draws := rfl
@[simp] theorem State.finish_prog : (s.finish).prog = s.prog := rfl
@[simp] theorem State.finish_reads : (s.finish).reads = s.reads := rfl
@[simp] theorem State.finish_arrays : (s.finish).arrays = s.arrays := rfl
@[simp] theorem State.finish_turns : (s.finish).turns = s.turns := rfl

@[simp] theorem State.latch_chain (op : BitVec 4) (len : BitVec 7) : (s.latch op len).chain = s.chain := rfl
@[simp] theorem State.latch_acc (op : BitVec 4) (len : BitVec 7) : (s.latch op len).acc = s.acc := rfl
@[simp] theorem State.latch_col (op : BitVec 4) (len : BitVec 7) : (s.latch op len).col = s.col := rfl
@[simp] theorem State.latch_salt (op : BitVec 4) (len : BitVec 7) : (s.latch op len).salt = s.salt := rfl
@[simp] theorem State.latch_salted (op : BitVec 4) (len : BitVec 7) : (s.latch op len).salted = s.salted := rfl
@[simp] theorem State.latch_bitcntLo (op : BitVec 4) (len : BitVec 7) : (s.latch op len).bitcntLo = s.bitcntLo := rfl
@[simp] theorem State.latch_bitcntHi (op : BitVec 4) (len : BitVec 7) : (s.latch op len).bitcntHi = s.bitcntHi := rfl
@[simp] theorem State.latch_buf (op : BitVec 4) (len : BitVec 7) : (s.latch op len).buf = s.buf := rfl
@[simp] theorem State.latch_plen (op : BitVec 4) (len : BitVec 7) : (s.latch op len).plen = s.plen := rfl
@[simp] theorem State.latch_lstate (op : BitVec 4) (len : BitVec 7) : (s.latch op len).lstate = s.lstate := rfl
@[simp] theorem State.latch_busy (op : BitVec 4) (len : BitVec 7) : (s.latch op len).busy = true := rfl
@[simp] theorem State.latch_latchOp (op : BitVec 4) (len : BitVec 7) : (s.latch op len).latchOp = op := rfl
@[simp] theorem State.latch_latchLen (op : BitVec 4) (len : BitVec 7) : (s.latch op len).latchLen = len := rfl
@[simp] theorem State.latch_done (op : BitVec 4) (len : BitVec 7) : (s.latch op len).done = s.done := rfl
@[simp] theorem State.latch_err (op : BitVec 4) (len : BitVec 7) : (s.latch op len).err = s.err := rfl
@[simp] theorem State.latch_errcode (op : BitVec 4) (len : BitVec 7) : (s.latch op len).errcode = s.errcode := rfl
@[simp] theorem State.latch_doneIe (op : BitVec 4) (len : BitVec 7) : (s.latch op len).doneIe = s.doneIe := rfl
@[simp] theorem State.latch_errIe (op : BitVec 4) (len : BitVec 7) : (s.latch op len).errIe = s.errIe := rfl
@[simp] theorem State.latch_ncomp (op : BitVec 4) (len : BitVec 7) : (s.latch op len).ncomp = s.ncomp := rfl
@[simp] theorem State.latch_saltIn (op : BitVec 4) (len : BitVec 7) : (s.latch op len).saltIn = s.saltIn := rfl
@[simp] theorem State.latch_dataIn (op : BitVec 4) (len : BitVec 7) : (s.latch op len).dataIn = s.dataIn := rfl
@[simp] theorem State.latch_stream (op : BitVec 4) (len : BitVec 7) : (s.latch op len).stream = s.stream := rfl
@[simp] theorem State.latch_draws (op : BitVec 4) (len : BitVec 7) : (s.latch op len).draws = s.draws := rfl
@[simp] theorem State.latch_prog (op : BitVec 4) (len : BitVec 7) : (s.latch op len).prog = s.prog := rfl
@[simp] theorem State.latch_reads (op : BitVec 4) (len : BitVec 7) : (s.latch op len).reads = s.reads := rfl
@[simp] theorem State.latch_arrays (op : BitVec 4) (len : BitVec 7) : (s.latch op len).arrays = s.arrays := rfl
@[simp] theorem State.latch_turns (op : BitVec 4) (len : BitVec 7) : (s.latch op len).turns = s.turns := rfl

@[simp] theorem State.clearFlags_chain (v : Word) : (s.clearFlags v).chain = s.chain := rfl
@[simp] theorem State.clearFlags_acc (v : Word) : (s.clearFlags v).acc = s.acc := rfl
@[simp] theorem State.clearFlags_col (v : Word) : (s.clearFlags v).col = s.col := rfl
@[simp] theorem State.clearFlags_salt (v : Word) : (s.clearFlags v).salt = s.salt := rfl
@[simp] theorem State.clearFlags_salted (v : Word) : (s.clearFlags v).salted = s.salted := rfl
@[simp] theorem State.clearFlags_bitcntLo (v : Word) : (s.clearFlags v).bitcntLo = s.bitcntLo := rfl
@[simp] theorem State.clearFlags_bitcntHi (v : Word) : (s.clearFlags v).bitcntHi = s.bitcntHi := rfl
@[simp] theorem State.clearFlags_buf (v : Word) : (s.clearFlags v).buf = s.buf := rfl
@[simp] theorem State.clearFlags_plen (v : Word) : (s.clearFlags v).plen = s.plen := rfl
@[simp] theorem State.clearFlags_lstate (v : Word) : (s.clearFlags v).lstate = s.lstate := rfl
@[simp] theorem State.clearFlags_busy (v : Word) : (s.clearFlags v).busy = s.busy := rfl
@[simp] theorem State.clearFlags_latchOp (v : Word) : (s.clearFlags v).latchOp = s.latchOp := rfl
@[simp] theorem State.clearFlags_latchLen (v : Word) : (s.clearFlags v).latchLen = s.latchLen := rfl
@[simp] theorem State.clearFlags_done (v : Word) : (s.clearFlags v).done = (if v.getLsbD 4 then false else s.done) := rfl
@[simp] theorem State.clearFlags_err (v : Word) : (s.clearFlags v).err = (if v.getLsbD 5 then false else s.err) := rfl
@[simp] theorem State.clearFlags_errcode (v : Word) : (s.clearFlags v).errcode = (if v.getLsbD 5 then .noError else s.errcode) := rfl
@[simp] theorem State.clearFlags_doneIe (v : Word) : (s.clearFlags v).doneIe = s.doneIe := rfl
@[simp] theorem State.clearFlags_errIe (v : Word) : (s.clearFlags v).errIe = s.errIe := rfl
@[simp] theorem State.clearFlags_ncomp (v : Word) : (s.clearFlags v).ncomp = s.ncomp := rfl
@[simp] theorem State.clearFlags_saltIn (v : Word) : (s.clearFlags v).saltIn = s.saltIn := rfl
@[simp] theorem State.clearFlags_dataIn (v : Word) : (s.clearFlags v).dataIn = s.dataIn := rfl
@[simp] theorem State.clearFlags_stream (v : Word) : (s.clearFlags v).stream = s.stream := rfl
@[simp] theorem State.clearFlags_draws (v : Word) : (s.clearFlags v).draws = s.draws := rfl
@[simp] theorem State.clearFlags_prog (v : Word) : (s.clearFlags v).prog = s.prog := rfl
@[simp] theorem State.clearFlags_reads (v : Word) : (s.clearFlags v).reads = s.reads := rfl
@[simp] theorem State.clearFlags_arrays (v : Word) : (s.clearFlags v).arrays = s.arrays := rfl
@[simp] theorem State.clearFlags_turns (v : Word) : (s.clearFlags v).turns = s.turns := rfl

@[simp] theorem State.setCtrl_chain (v : Word) : (s.setCtrl v).chain = s.chain := rfl
@[simp] theorem State.setCtrl_acc (v : Word) : (s.setCtrl v).acc = s.acc := rfl
@[simp] theorem State.setCtrl_col (v : Word) : (s.setCtrl v).col = s.col := rfl
@[simp] theorem State.setCtrl_salt (v : Word) : (s.setCtrl v).salt = s.salt := rfl
@[simp] theorem State.setCtrl_salted (v : Word) : (s.setCtrl v).salted = s.salted := rfl
@[simp] theorem State.setCtrl_bitcntLo (v : Word) : (s.setCtrl v).bitcntLo = s.bitcntLo := rfl
@[simp] theorem State.setCtrl_bitcntHi (v : Word) : (s.setCtrl v).bitcntHi = s.bitcntHi := rfl
@[simp] theorem State.setCtrl_buf (v : Word) : (s.setCtrl v).buf = s.buf := rfl
@[simp] theorem State.setCtrl_plen (v : Word) : (s.setCtrl v).plen = s.plen := rfl
@[simp] theorem State.setCtrl_lstate (v : Word) : (s.setCtrl v).lstate = s.lstate := rfl
@[simp] theorem State.setCtrl_busy (v : Word) : (s.setCtrl v).busy = s.busy := rfl
@[simp] theorem State.setCtrl_latchOp (v : Word) : (s.setCtrl v).latchOp = s.latchOp := rfl
@[simp] theorem State.setCtrl_latchLen (v : Word) : (s.setCtrl v).latchLen = s.latchLen := rfl
@[simp] theorem State.setCtrl_done (v : Word) : (s.setCtrl v).done = s.done := rfl
@[simp] theorem State.setCtrl_err (v : Word) : (s.setCtrl v).err = s.err := rfl
@[simp] theorem State.setCtrl_errcode (v : Word) : (s.setCtrl v).errcode = s.errcode := rfl
@[simp] theorem State.setCtrl_doneIe (v : Word) : (s.setCtrl v).doneIe = v.getLsbD 0 := rfl
@[simp] theorem State.setCtrl_errIe (v : Word) : (s.setCtrl v).errIe = v.getLsbD 1 := rfl
@[simp] theorem State.setCtrl_ncomp (v : Word) : (s.setCtrl v).ncomp = s.ncomp := rfl
@[simp] theorem State.setCtrl_saltIn (v : Word) : (s.setCtrl v).saltIn = s.saltIn := rfl
@[simp] theorem State.setCtrl_dataIn (v : Word) : (s.setCtrl v).dataIn = s.dataIn := rfl
@[simp] theorem State.setCtrl_stream (v : Word) : (s.setCtrl v).stream = s.stream := rfl
@[simp] theorem State.setCtrl_draws (v : Word) : (s.setCtrl v).draws = s.draws := rfl
@[simp] theorem State.setCtrl_prog (v : Word) : (s.setCtrl v).prog = s.prog := rfl
@[simp] theorem State.setCtrl_reads (v : Word) : (s.setCtrl v).reads = s.reads := rfl
@[simp] theorem State.setCtrl_arrays (v : Word) : (s.setCtrl v).arrays = s.arrays := rfl
@[simp] theorem State.setCtrl_turns (v : Word) : (s.setCtrl v).turns = s.turns := rfl

@[simp] theorem State.drawn_chain : (s.drawn).chain = s.chain := rfl
@[simp] theorem State.drawn_acc : (s.drawn).acc = s.acc := rfl
@[simp] theorem State.drawn_col : (s.drawn).col = s.col := rfl
@[simp] theorem State.drawn_salt : (s.drawn).salt = s.salt := rfl
@[simp] theorem State.drawn_salted : (s.drawn).salted = s.salted := rfl
@[simp] theorem State.drawn_bitcntLo : (s.drawn).bitcntLo = s.bitcntLo := rfl
@[simp] theorem State.drawn_bitcntHi : (s.drawn).bitcntHi = s.bitcntHi := rfl
@[simp] theorem State.drawn_buf : (s.drawn).buf = s.buf := rfl
@[simp] theorem State.drawn_plen : (s.drawn).plen = s.plen := rfl
@[simp] theorem State.drawn_lstate : (s.drawn).lstate = s.lstate := rfl
@[simp] theorem State.drawn_busy : (s.drawn).busy = s.busy := rfl
@[simp] theorem State.drawn_latchOp : (s.drawn).latchOp = s.latchOp := rfl
@[simp] theorem State.drawn_latchLen : (s.drawn).latchLen = s.latchLen := rfl
@[simp] theorem State.drawn_done : (s.drawn).done = s.done := rfl
@[simp] theorem State.drawn_err : (s.drawn).err = s.err := rfl
@[simp] theorem State.drawn_errcode : (s.drawn).errcode = s.errcode := rfl
@[simp] theorem State.drawn_doneIe : (s.drawn).doneIe = s.doneIe := rfl
@[simp] theorem State.drawn_errIe : (s.drawn).errIe = s.errIe := rfl
@[simp] theorem State.drawn_ncomp : (s.drawn).ncomp = s.ncomp := rfl
@[simp] theorem State.drawn_saltIn : (s.drawn).saltIn = s.saltIn := rfl
@[simp] theorem State.drawn_dataIn : (s.drawn).dataIn = s.dataIn := rfl
@[simp] theorem State.drawn_stream : (s.drawn).stream = s.stream := rfl
@[simp] theorem State.drawn_draws : (s.drawn).draws = s.draws + 1 := rfl
@[simp] theorem State.drawn_prog : (s.drawn).prog = s.prog := rfl
@[simp] theorem State.drawn_reads : (s.drawn).reads = s.reads := rfl
@[simp] theorem State.drawn_arrays : (s.drawn).arrays = s.arrays := rfl
@[simp] theorem State.drawn_turns : (s.drawn).turns = s.turns := rfl

@[simp] theorem State.initHash_chain : (s.initHash).chain = zeroWords := rfl
@[simp] theorem State.initHash_acc : (s.initHash).acc = s.acc := rfl
@[simp] theorem State.initHash_col : (s.initHash).col = s.col := rfl
@[simp] theorem State.initHash_salt : (s.initHash).salt = zeroBlock := rfl
@[simp] theorem State.initHash_salted : (s.initHash).salted = false := rfl
@[simp] theorem State.initHash_bitcntLo : (s.initHash).bitcntLo = 0 := rfl
@[simp] theorem State.initHash_bitcntHi : (s.initHash).bitcntHi = 0 := rfl
@[simp] theorem State.initHash_buf : (s.initHash).buf = zeroBlock := rfl
@[simp] theorem State.initHash_plen : (s.initHash).plen = 0 := rfl
@[simp] theorem State.initHash_lstate : (s.initHash).lstate = .accumulating := rfl
@[simp] theorem State.initHash_busy : (s.initHash).busy = s.busy := rfl
@[simp] theorem State.initHash_latchOp : (s.initHash).latchOp = s.latchOp := rfl
@[simp] theorem State.initHash_latchLen : (s.initHash).latchLen = s.latchLen := rfl
@[simp] theorem State.initHash_done : (s.initHash).done = s.done := rfl
@[simp] theorem State.initHash_err : (s.initHash).err = s.err := rfl
@[simp] theorem State.initHash_errcode : (s.initHash).errcode = s.errcode := rfl
@[simp] theorem State.initHash_doneIe : (s.initHash).doneIe = s.doneIe := rfl
@[simp] theorem State.initHash_errIe : (s.initHash).errIe = s.errIe := rfl
@[simp] theorem State.initHash_ncomp : (s.initHash).ncomp = 0 := rfl
@[simp] theorem State.initHash_saltIn : (s.initHash).saltIn = s.saltIn := rfl
@[simp] theorem State.initHash_dataIn : (s.initHash).dataIn = s.dataIn := rfl
@[simp] theorem State.initHash_stream : (s.initHash).stream = s.stream := rfl
@[simp] theorem State.initHash_draws : (s.initHash).draws = s.draws := rfl
@[simp] theorem State.initHash_prog : (s.initHash).prog = s.prog := rfl
@[simp] theorem State.initHash_reads : (s.initHash).reads = s.reads := rfl
@[simp] theorem State.initHash_arrays : (s.initHash).arrays = s.arrays := rfl
@[simp] theorem State.initHash_turns : (s.initHash).turns = s.turns := rfl

@[simp] theorem State.storeRest_chain (d : List Byte) : (s.storeRest d).chain = s.chain := rfl
@[simp] theorem State.storeRest_acc (d : List Byte) : (s.storeRest d).acc = s.acc := rfl
@[simp] theorem State.storeRest_col (d : List Byte) : (s.storeRest d).col = s.col := rfl
@[simp] theorem State.storeRest_salt (d : List Byte) : (s.storeRest d).salt = s.salt := rfl
@[simp] theorem State.storeRest_salted (d : List Byte) : (s.storeRest d).salted = s.salted := rfl
@[simp] theorem State.storeRest_bitcntLo (d : List Byte) : (s.storeRest d).bitcntLo = s.bitcntLo := rfl
@[simp] theorem State.storeRest_bitcntHi (d : List Byte) : (s.storeRest d).bitcntHi = s.bitcntHi := rfl
@[simp] theorem State.storeRest_buf (d : List Byte) : (s.storeRest d).buf = writeBytes s.buf 0 d := rfl
@[simp] theorem State.storeRest_plen (d : List Byte) : (s.storeRest d).plen = BitVec.ofNat 6 d.length := rfl
@[simp] theorem State.storeRest_lstate (d : List Byte) : (s.storeRest d).lstate = s.lstate := rfl
@[simp] theorem State.storeRest_busy (d : List Byte) : (s.storeRest d).busy = s.busy := rfl
@[simp] theorem State.storeRest_latchOp (d : List Byte) : (s.storeRest d).latchOp = s.latchOp := rfl
@[simp] theorem State.storeRest_latchLen (d : List Byte) : (s.storeRest d).latchLen = s.latchLen := rfl
@[simp] theorem State.storeRest_done (d : List Byte) : (s.storeRest d).done = s.done := rfl
@[simp] theorem State.storeRest_err (d : List Byte) : (s.storeRest d).err = s.err := rfl
@[simp] theorem State.storeRest_errcode (d : List Byte) : (s.storeRest d).errcode = s.errcode := rfl
@[simp] theorem State.storeRest_doneIe (d : List Byte) : (s.storeRest d).doneIe = s.doneIe := rfl
@[simp] theorem State.storeRest_errIe (d : List Byte) : (s.storeRest d).errIe = s.errIe := rfl
@[simp] theorem State.storeRest_ncomp (d : List Byte) : (s.storeRest d).ncomp = s.ncomp := rfl
@[simp] theorem State.storeRest_saltIn (d : List Byte) : (s.storeRest d).saltIn = s.saltIn := rfl
@[simp] theorem State.storeRest_dataIn (d : List Byte) : (s.storeRest d).dataIn = s.dataIn := rfl
@[simp] theorem State.storeRest_stream (d : List Byte) : (s.storeRest d).stream = s.stream := rfl
@[simp] theorem State.storeRest_draws (d : List Byte) : (s.storeRest d).draws = s.draws := rfl
@[simp] theorem State.storeRest_prog (d : List Byte) : (s.storeRest d).prog = s.prog := rfl
@[simp] theorem State.storeRest_reads (d : List Byte) : (s.storeRest d).reads = s.reads := rfl
@[simp] theorem State.storeRest_arrays (d : List Byte) : (s.storeRest d).arrays = s.arrays := rfl
@[simp] theorem State.storeRest_turns (d : List Byte) : (s.storeRest d).turns = s.turns := rfl

@[simp] theorem State.storeLength_chain : (s.storeLength).chain = s.chain := rfl
@[simp] theorem State.storeLength_acc : (s.storeLength).acc = s.acc := rfl
@[simp] theorem State.storeLength_col : (s.storeLength).col = s.col := rfl
@[simp] theorem State.storeLength_salt : (s.storeLength).salt = s.salt := rfl
@[simp] theorem State.storeLength_salted : (s.storeLength).salted = s.salted := rfl
@[simp] theorem State.storeLength_bitcntLo : (s.storeLength).bitcntLo = s.bitcntLo := rfl
@[simp] theorem State.storeLength_bitcntHi : (s.storeLength).bitcntHi = s.bitcntHi := rfl
@[simp] theorem State.storeLength_buf : (s.storeLength).buf = writeBytes (writeBytes s.buf 48 (le64enc s.bitcntLo)) 56 (le64enc s.bitcntHi) := rfl
@[simp] theorem State.storeLength_plen : (s.storeLength).plen = s.plen := rfl
@[simp] theorem State.storeLength_lstate : (s.storeLength).lstate = s.lstate := rfl
@[simp] theorem State.storeLength_busy : (s.storeLength).busy = s.busy := rfl
@[simp] theorem State.storeLength_latchOp : (s.storeLength).latchOp = s.latchOp := rfl
@[simp] theorem State.storeLength_latchLen : (s.storeLength).latchLen = s.latchLen := rfl
@[simp] theorem State.storeLength_done : (s.storeLength).done = s.done := rfl
@[simp] theorem State.storeLength_err : (s.storeLength).err = s.err := rfl
@[simp] theorem State.storeLength_errcode : (s.storeLength).errcode = s.errcode := rfl
@[simp] theorem State.storeLength_doneIe : (s.storeLength).doneIe = s.doneIe := rfl
@[simp] theorem State.storeLength_errIe : (s.storeLength).errIe = s.errIe := rfl
@[simp] theorem State.storeLength_ncomp : (s.storeLength).ncomp = s.ncomp := rfl
@[simp] theorem State.storeLength_saltIn : (s.storeLength).saltIn = s.saltIn := rfl
@[simp] theorem State.storeLength_dataIn : (s.storeLength).dataIn = s.dataIn := rfl
@[simp] theorem State.storeLength_stream : (s.storeLength).stream = s.stream := rfl
@[simp] theorem State.storeLength_draws : (s.storeLength).draws = s.draws := rfl
@[simp] theorem State.storeLength_prog : (s.storeLength).prog = s.prog := rfl
@[simp] theorem State.storeLength_reads : (s.storeLength).reads = s.reads := rfl
@[simp] theorem State.storeLength_arrays : (s.storeLength).arrays = s.arrays := rfl
@[simp] theorem State.storeLength_turns : (s.storeLength).turns = s.turns := rfl

@[simp] theorem State.countAdd_chain (n : Nat) : (s.countAdd n).chain = s.chain := rfl
@[simp] theorem State.countAdd_acc (n : Nat) : (s.countAdd n).acc = s.acc := rfl
@[simp] theorem State.countAdd_col (n : Nat) : (s.countAdd n).col = s.col := rfl
@[simp] theorem State.countAdd_salt (n : Nat) : (s.countAdd n).salt = s.salt := rfl
@[simp] theorem State.countAdd_salted (n : Nat) : (s.countAdd n).salted = s.salted := rfl
@[simp] theorem State.countAdd_bitcntLo (n : Nat) : (s.countAdd n).bitcntLo = s.bitcntLo + BitVec.ofNat 64 (8 * n) := rfl
@[simp] theorem State.countAdd_bitcntHi (n : Nat) : (s.countAdd n).bitcntHi = (if s.bitcntLo + BitVec.ofNat 64 (8 * n) < BitVec.ofNat 64 (8 * n) then s.bitcntHi + 1 else s.bitcntHi) := rfl
@[simp] theorem State.countAdd_buf (n : Nat) : (s.countAdd n).buf = s.buf := rfl
@[simp] theorem State.countAdd_plen (n : Nat) : (s.countAdd n).plen = s.plen := rfl
@[simp] theorem State.countAdd_lstate (n : Nat) : (s.countAdd n).lstate = s.lstate := rfl
@[simp] theorem State.countAdd_busy (n : Nat) : (s.countAdd n).busy = s.busy := rfl
@[simp] theorem State.countAdd_latchOp (n : Nat) : (s.countAdd n).latchOp = s.latchOp := rfl
@[simp] theorem State.countAdd_latchLen (n : Nat) : (s.countAdd n).latchLen = s.latchLen := rfl
@[simp] theorem State.countAdd_done (n : Nat) : (s.countAdd n).done = s.done := rfl
@[simp] theorem State.countAdd_err (n : Nat) : (s.countAdd n).err = s.err := rfl
@[simp] theorem State.countAdd_errcode (n : Nat) : (s.countAdd n).errcode = s.errcode := rfl
@[simp] theorem State.countAdd_doneIe (n : Nat) : (s.countAdd n).doneIe = s.doneIe := rfl
@[simp] theorem State.countAdd_errIe (n : Nat) : (s.countAdd n).errIe = s.errIe := rfl
@[simp] theorem State.countAdd_ncomp (n : Nat) : (s.countAdd n).ncomp = s.ncomp := rfl
@[simp] theorem State.countAdd_saltIn (n : Nat) : (s.countAdd n).saltIn = s.saltIn := rfl
@[simp] theorem State.countAdd_dataIn (n : Nat) : (s.countAdd n).dataIn = s.dataIn := rfl
@[simp] theorem State.countAdd_stream (n : Nat) : (s.countAdd n).stream = s.stream := rfl
@[simp] theorem State.countAdd_draws (n : Nat) : (s.countAdd n).draws = s.draws := rfl
@[simp] theorem State.countAdd_prog (n : Nat) : (s.countAdd n).prog = s.prog := rfl
@[simp] theorem State.countAdd_reads (n : Nat) : (s.countAdd n).reads = s.reads := rfl
@[simp] theorem State.countAdd_arrays (n : Nat) : (s.countAdd n).arrays = s.arrays := rfl
@[simp] theorem State.countAdd_turns (n : Nat) : (s.countAdd n).turns = s.turns := rfl

@[simp] theorem State.compress_chain (p : Params) (b : Block) (a : Bool) : (s.compress p b a).chain = nextChain p s.chain (mixSalt (a && s.salted) s.salt b) := rfl
@[simp] theorem State.compress_acc (p : Params) (b : Block) (a : Bool) : (s.compress p b a).acc = nextChain p s.chain (mixSalt (a && s.salted) s.salt b) := rfl
@[simp] theorem State.compress_col (p : Params) (b : Block) (a : Bool) : (s.compress p b a).col = 1023 := rfl
@[simp] theorem State.compress_salt (p : Params) (b : Block) (a : Bool) : (s.compress p b a).salt = s.salt := rfl
@[simp] theorem State.compress_salted (p : Params) (b : Block) (a : Bool) : (s.compress p b a).salted = s.salted := rfl
@[simp] theorem State.compress_bitcntLo (p : Params) (b : Block) (a : Bool) : (s.compress p b a).bitcntLo = s.bitcntLo := rfl
@[simp] theorem State.compress_bitcntHi (p : Params) (b : Block) (a : Bool) : (s.compress p b a).bitcntHi = s.bitcntHi := rfl
@[simp] theorem State.compress_buf (p : Params) (b : Block) (a : Bool) : (s.compress p b a).buf = s.buf := rfl
@[simp] theorem State.compress_plen (p : Params) (b : Block) (a : Bool) : (s.compress p b a).plen = s.plen := rfl
@[simp] theorem State.compress_lstate (p : Params) (b : Block) (a : Bool) : (s.compress p b a).lstate = s.lstate := rfl
@[simp] theorem State.compress_busy (p : Params) (b : Block) (a : Bool) : (s.compress p b a).busy = s.busy := rfl
@[simp] theorem State.compress_latchOp (p : Params) (b : Block) (a : Bool) : (s.compress p b a).latchOp = s.latchOp := rfl
@[simp] theorem State.compress_latchLen (p : Params) (b : Block) (a : Bool) : (s.compress p b a).latchLen = s.latchLen := rfl
@[simp] theorem State.compress_done (p : Params) (b : Block) (a : Bool) : (s.compress p b a).done = s.done := rfl
@[simp] theorem State.compress_err (p : Params) (b : Block) (a : Bool) : (s.compress p b a).err = s.err := rfl
@[simp] theorem State.compress_errcode (p : Params) (b : Block) (a : Bool) : (s.compress p b a).errcode = s.errcode := rfl
@[simp] theorem State.compress_doneIe (p : Params) (b : Block) (a : Bool) : (s.compress p b a).doneIe = s.doneIe := rfl
@[simp] theorem State.compress_errIe (p : Params) (b : Block) (a : Bool) : (s.compress p b a).errIe = s.errIe := rfl
@[simp] theorem State.compress_ncomp (p : Params) (b : Block) (a : Bool) : (s.compress p b a).ncomp = s.ncomp + 1 := rfl
@[simp] theorem State.compress_saltIn (p : Params) (b : Block) (a : Bool) : (s.compress p b a).saltIn = s.saltIn := rfl
@[simp] theorem State.compress_dataIn (p : Params) (b : Block) (a : Bool) : (s.compress p b a).dataIn = s.dataIn := rfl
@[simp] theorem State.compress_stream (p : Params) (b : Block) (a : Bool) : (s.compress p b a).stream = s.stream := rfl
@[simp] theorem State.compress_draws (p : Params) (b : Block) (a : Bool) : (s.compress p b a).draws = s.draws := rfl
@[simp] theorem State.compress_prog (p : Params) (b : Block) (a : Bool) : (s.compress p b a).prog = s.prog := rfl
@[simp] theorem State.compress_reads (p : Params) (b : Block) (a : Bool) : (s.compress p b a).reads = s.reads := rfl
@[simp] theorem State.compress_arrays (p : Params) (b : Block) (a : Bool) : (s.compress p b a).arrays = s.arrays := rfl
@[simp] theorem State.compress_turns (p : Params) (b : Block) (a : Bool) : (s.compress p b a).turns = s.turns := rfl

@[simp] theorem State.raise_chain (c : ErrCode) : (s.raise c).chain = s.chain := by unfold State.raise; split <;> simp_all
@[simp] theorem State.raise_acc (c : ErrCode) : (s.raise c).acc = s.acc := by unfold State.raise; split <;> simp_all
@[simp] theorem State.raise_col (c : ErrCode) : (s.raise c).col = s.col := by unfold State.raise; split <;> simp_all
@[simp] theorem State.raise_salt (c : ErrCode) : (s.raise c).salt = s.salt := by unfold State.raise; split <;> simp_all
@[simp] theorem State.raise_salted (c : ErrCode) : (s.raise c).salted = s.salted := by unfold State.raise; split <;> simp_all
@[simp] theorem State.raise_bitcntLo (c : ErrCode) : (s.raise c).bitcntLo = s.bitcntLo := by unfold State.raise; split <;> simp_all
@[simp] theorem State.raise_bitcntHi (c : ErrCode) : (s.raise c).bitcntHi = s.bitcntHi := by unfold State.raise; split <;> simp_all
@[simp] theorem State.raise_buf (c : ErrCode) : (s.raise c).buf = s.buf := by unfold State.raise; split <;> simp_all
@[simp] theorem State.raise_plen (c : ErrCode) : (s.raise c).plen = s.plen := by unfold State.raise; split <;> simp_all
@[simp] theorem State.raise_lstate (c : ErrCode) : (s.raise c).lstate = s.lstate := by unfold State.raise; split <;> simp_all
@[simp] theorem State.raise_busy (c : ErrCode) : (s.raise c).busy = s.busy := by unfold State.raise; split <;> simp_all
@[simp] theorem State.raise_latchOp (c : ErrCode) : (s.raise c).latchOp = s.latchOp := by unfold State.raise; split <;> simp_all
@[simp] theorem State.raise_latchLen (c : ErrCode) : (s.raise c).latchLen = s.latchLen := by unfold State.raise; split <;> simp_all
@[simp] theorem State.raise_done (c : ErrCode) : (s.raise c).done = s.done := by unfold State.raise; split <;> simp_all
@[simp] theorem State.raise_err (c : ErrCode) : (s.raise c).err = true := by unfold State.raise; split <;> simp_all
@[simp] theorem State.raise_errcode (c : ErrCode) : (s.raise c).errcode = (if s.err then s.errcode else c) := by unfold State.raise; split <;> simp_all
@[simp] theorem State.raise_doneIe (c : ErrCode) : (s.raise c).doneIe = s.doneIe := by unfold State.raise; split <;> simp_all
@[simp] theorem State.raise_errIe (c : ErrCode) : (s.raise c).errIe = s.errIe := by unfold State.raise; split <;> simp_all
@[simp] theorem State.raise_ncomp (c : ErrCode) : (s.raise c).ncomp = s.ncomp := by unfold State.raise; split <;> simp_all
@[simp] theorem State.raise_saltIn (c : ErrCode) : (s.raise c).saltIn = s.saltIn := by unfold State.raise; split <;> simp_all
@[simp] theorem State.raise_dataIn (c : ErrCode) : (s.raise c).dataIn = s.dataIn := by unfold State.raise; split <;> simp_all
@[simp] theorem State.raise_stream (c : ErrCode) : (s.raise c).stream = s.stream := by unfold State.raise; split <;> simp_all
@[simp] theorem State.raise_draws (c : ErrCode) : (s.raise c).draws = s.draws := by unfold State.raise; split <;> simp_all
@[simp] theorem State.raise_prog (c : ErrCode) : (s.raise c).prog = s.prog := by unfold State.raise; split <;> simp_all
@[simp] theorem State.raise_reads (c : ErrCode) : (s.raise c).reads = s.reads := by unfold State.raise; split <;> simp_all
@[simp] theorem State.raise_arrays (c : ErrCode) : (s.raise c).arrays = s.arrays := by unfold State.raise; split <;> simp_all
@[simp] theorem State.raise_turns (c : ErrCode) : (s.raise c).turns = s.turns := by unfold State.raise; split <;> simp_all

@[simp] theorem State.reject_chain (c : ErrCode) : (s.reject c).chain = s.chain := by simp [State.reject]
@[simp] theorem State.reject_acc (c : ErrCode) : (s.reject c).acc = s.acc := by simp [State.reject]
@[simp] theorem State.reject_col (c : ErrCode) : (s.reject c).col = s.col := by simp [State.reject]
@[simp] theorem State.reject_salt (c : ErrCode) : (s.reject c).salt = s.salt := by simp [State.reject]
@[simp] theorem State.reject_salted (c : ErrCode) : (s.reject c).salted = s.salted := by simp [State.reject]
@[simp] theorem State.reject_bitcntLo (c : ErrCode) : (s.reject c).bitcntLo = s.bitcntLo := by simp [State.reject]
@[simp] theorem State.reject_bitcntHi (c : ErrCode) : (s.reject c).bitcntHi = s.bitcntHi := by simp [State.reject]
@[simp] theorem State.reject_buf (c : ErrCode) : (s.reject c).buf = s.buf := by simp [State.reject]
@[simp] theorem State.reject_plen (c : ErrCode) : (s.reject c).plen = s.plen := by simp [State.reject]
@[simp] theorem State.reject_lstate (c : ErrCode) : (s.reject c).lstate = s.lstate := by simp [State.reject]
@[simp] theorem State.reject_busy (c : ErrCode) : (s.reject c).busy = s.busy := by simp [State.reject]
@[simp] theorem State.reject_latchOp (c : ErrCode) : (s.reject c).latchOp = s.latchOp := by simp [State.reject]
@[simp] theorem State.reject_latchLen (c : ErrCode) : (s.reject c).latchLen = s.latchLen := by simp [State.reject]
@[simp] theorem State.reject_done (c : ErrCode) : (s.reject c).done = true := by simp [State.reject]
@[simp] theorem State.reject_err (c : ErrCode) : (s.reject c).err = true := by simp [State.reject]
@[simp] theorem State.reject_errcode (c : ErrCode) : (s.reject c).errcode = (if s.err then s.errcode else c) := by simp [State.reject]
@[simp] theorem State.reject_doneIe (c : ErrCode) : (s.reject c).doneIe = s.doneIe := by simp [State.reject]
@[simp] theorem State.reject_errIe (c : ErrCode) : (s.reject c).errIe = s.errIe := by simp [State.reject]
@[simp] theorem State.reject_ncomp (c : ErrCode) : (s.reject c).ncomp = s.ncomp := by simp [State.reject]
@[simp] theorem State.reject_saltIn (c : ErrCode) : (s.reject c).saltIn = s.saltIn := by simp [State.reject]
@[simp] theorem State.reject_dataIn (c : ErrCode) : (s.reject c).dataIn = s.dataIn := by simp [State.reject]
@[simp] theorem State.reject_stream (c : ErrCode) : (s.reject c).stream = s.stream := by simp [State.reject]
@[simp] theorem State.reject_draws (c : ErrCode) : (s.reject c).draws = s.draws := by simp [State.reject]
@[simp] theorem State.reject_prog (c : ErrCode) : (s.reject c).prog = s.prog := by simp [State.reject]
@[simp] theorem State.reject_reads (c : ErrCode) : (s.reject c).reads = s.reads := by simp [State.reject]
@[simp] theorem State.reject_arrays (c : ErrCode) : (s.reject c).arrays = s.arrays := by simp [State.reject]
@[simp] theorem State.reject_turns (c : ErrCode) : (s.reject c).turns = s.turns := by simp [State.reject]

@[simp] theorem State.turnAway_chain (c : ErrCode) : (s.turnAway c).chain = s.chain := by simp [State.turnAway]
@[simp] theorem State.turnAway_acc (c : ErrCode) : (s.turnAway c).acc = s.acc := by simp [State.turnAway]
@[simp] theorem State.turnAway_col (c : ErrCode) : (s.turnAway c).col = s.col := by simp [State.turnAway]
@[simp] theorem State.turnAway_salt (c : ErrCode) : (s.turnAway c).salt = s.salt := by simp [State.turnAway]
@[simp] theorem State.turnAway_salted (c : ErrCode) : (s.turnAway c).salted = s.salted := by simp [State.turnAway]
@[simp] theorem State.turnAway_bitcntLo (c : ErrCode) : (s.turnAway c).bitcntLo = s.bitcntLo := by simp [State.turnAway]
@[simp] theorem State.turnAway_bitcntHi (c : ErrCode) : (s.turnAway c).bitcntHi = s.bitcntHi := by simp [State.turnAway]
@[simp] theorem State.turnAway_buf (c : ErrCode) : (s.turnAway c).buf = s.buf := by simp [State.turnAway]
@[simp] theorem State.turnAway_plen (c : ErrCode) : (s.turnAway c).plen = s.plen := by simp [State.turnAway]
@[simp] theorem State.turnAway_lstate (c : ErrCode) : (s.turnAway c).lstate = s.lstate := by simp [State.turnAway]
@[simp] theorem State.turnAway_busy (c : ErrCode) : (s.turnAway c).busy = false := by simp [State.turnAway]
@[simp] theorem State.turnAway_latchOp (c : ErrCode) : (s.turnAway c).latchOp = s.latchOp := by simp [State.turnAway]
@[simp] theorem State.turnAway_latchLen (c : ErrCode) : (s.turnAway c).latchLen = s.latchLen := by simp [State.turnAway]
@[simp] theorem State.turnAway_done (c : ErrCode) : (s.turnAway c).done = true := by simp [State.turnAway]
@[simp] theorem State.turnAway_err (c : ErrCode) : (s.turnAway c).err = true := by simp [State.turnAway]
@[simp] theorem State.turnAway_errcode (c : ErrCode) : (s.turnAway c).errcode = (if s.err then s.errcode else c) := by simp [State.turnAway]
@[simp] theorem State.turnAway_doneIe (c : ErrCode) : (s.turnAway c).doneIe = s.doneIe := by simp [State.turnAway]
@[simp] theorem State.turnAway_errIe (c : ErrCode) : (s.turnAway c).errIe = s.errIe := by simp [State.turnAway]
@[simp] theorem State.turnAway_ncomp (c : ErrCode) : (s.turnAway c).ncomp = s.ncomp := by simp [State.turnAway]
@[simp] theorem State.turnAway_saltIn (c : ErrCode) : (s.turnAway c).saltIn = s.saltIn := by simp [State.turnAway]
@[simp] theorem State.turnAway_dataIn (c : ErrCode) : (s.turnAway c).dataIn = s.dataIn := by simp [State.turnAway]
@[simp] theorem State.turnAway_stream (c : ErrCode) : (s.turnAway c).stream = s.stream := by simp [State.turnAway]
@[simp] theorem State.turnAway_draws (c : ErrCode) : (s.turnAway c).draws = s.draws := by simp [State.turnAway]
@[simp] theorem State.turnAway_prog (c : ErrCode) : (s.turnAway c).prog = s.prog := by simp [State.turnAway]
@[simp] theorem State.turnAway_reads (c : ErrCode) : (s.turnAway c).reads = s.reads := by simp [State.turnAway]
@[simp] theorem State.turnAway_arrays (c : ErrCode) : (s.turnAway c).arrays = s.arrays := by simp [State.turnAway]
@[simp] theorem State.turnAway_turns (c : ErrCode) : (s.turnAway c).turns = s.turns := by simp [State.turnAway]

end Sys2Proof.Machine
end

