-- ==== Sys2Proof/Laws/Controller.lean ====
section
/-! SUPPORT. What the controller's operations write and what they leave alone, and the absorption path
in the two shapes a command can take. -/

namespace Sys2Proof.Machine

/-- The loop of the absorption path writes CHAIN, ACC, COL, NCOMP, BUF and PLEN only (R146). -/
theorem State.absorbRest_frame (s : State) (p : Params) (n : Nat) (d : List Byte) :
    s.absorbRest p n d =
      { s with chain := (s.absorbRest p n d).chain, acc := (s.absorbRest p n d).acc, col := (s.absorbRest p n d).col, ncomp := (s.absorbRest p n d).ncomp, buf := (s.absorbRest p n d).buf, plen := (s.absorbRest p n d).plen } := by
  induction n generalizing d s with
  | zero => rfl
  | succ n ih =>
    unfold State.absorbRest
    split
    · rfl
    · rw [ih]; rfl

@[simp] theorem State.absorbRest_salt (s : State) (p : Params) (n : Nat) (d : List Byte) : (s.absorbRest p n d).salt = s.salt := by rw [State.absorbRest_frame]
@[simp] theorem State.absorbRest_salted (s : State) (p : Params) (n : Nat) (d : List Byte) : (s.absorbRest p n d).salted = s.salted := by rw [State.absorbRest_frame]
@[simp] theorem State.absorbRest_bitcntLo (s : State) (p : Params) (n : Nat) (d : List Byte) : (s.absorbRest p n d).bitcntLo = s.bitcntLo := by rw [State.absorbRest_frame]
@[simp] theorem State.absorbRest_bitcntHi (s : State) (p : Params) (n : Nat) (d : List Byte) : (s.absorbRest p n d).bitcntHi = s.bitcntHi := by rw [State.absorbRest_frame]
@[simp] theorem State.absorbRest_lstate (s : State) (p : Params) (n : Nat) (d : List Byte) : (s.absorbRest p n d).lstate = s.lstate := by rw [State.absorbRest_frame]
@[simp] theorem State.absorbRest_busy (s : State) (p : Params) (n : Nat) (d : List Byte) : (s.absorbRest p n d).busy = s.busy := by rw [State.absorbRest_frame]
@[simp] theorem State.absorbRest_latchOp (s : State) (p : Params) (n : Nat) (d : List Byte) : (s.absorbRest p n d).latchOp = s.latchOp := by rw [State.absorbRest_frame]
@[simp] theorem State.absorbRest_latchLen (s : State) (p : Params) (n : Nat) (d : List Byte) : (s.absorbRest p n d).latchLen = s.latchLen := by rw [State.absorbRest_frame]
@[simp] theorem State.absorbRest_done (s : State) (p : Params) (n : Nat) (d : List Byte) : (s.absorbRest p n d).done = s.done := by rw [State.absorbRest_frame]
@[simp] theorem State.absorbRest_err (s : State) (p : Params) (n : Nat) (d : List Byte) : (s.absorbRest p n d).err = s.err := by rw [State.absorbRest_frame]
@[simp] theorem State.absorbRest_errcode (s : State) (p : Params) (n : Nat) (d : List Byte) : (s.absorbRest p n d).errcode = s.errcode := by rw [State.absorbRest_frame]
@[simp] theorem State.absorbRest_doneIe (s : State) (p : Params) (n : Nat) (d : List Byte) : (s.absorbRest p n d).doneIe = s.doneIe := by rw [State.absorbRest_frame]
@[simp] theorem State.absorbRest_errIe (s : State) (p : Params) (n : Nat) (d : List Byte) : (s.absorbRest p n d).errIe = s.errIe := by rw [State.absorbRest_frame]
@[simp] theorem State.absorbRest_saltIn (s : State) (p : Params) (n : Nat) (d : List Byte) : (s.absorbRest p n d).saltIn = s.saltIn := by rw [State.absorbRest_frame]
@[simp] theorem State.absorbRest_dataIn (s : State) (p : Params) (n : Nat) (d : List Byte) : (s.absorbRest p n d).dataIn = s.dataIn := by rw [State.absorbRest_frame]
@[simp] theorem State.absorbRest_stream (s : State) (p : Params) (n : Nat) (d : List Byte) : (s.absorbRest p n d).stream = s.stream := by rw [State.absorbRest_frame]
@[simp] theorem State.absorbRest_draws (s : State) (p : Params) (n : Nat) (d : List Byte) : (s.absorbRest p n d).draws = s.draws := by rw [State.absorbRest_frame]
@[simp] theorem State.absorbRest_prog (s : State) (p : Params) (n : Nat) (d : List Byte) : (s.absorbRest p n d).prog = s.prog := by rw [State.absorbRest_frame]
@[simp] theorem State.absorbRest_reads (s : State) (p : Params) (n : Nat) (d : List Byte) : (s.absorbRest p n d).reads = s.reads := by rw [State.absorbRest_frame]
@[simp] theorem State.absorbRest_arrays (s : State) (p : Params) (n : Nat) (d : List Byte) : (s.absorbRest p n d).arrays = s.arrays := by rw [State.absorbRest_frame]
@[simp] theorem State.absorbRest_turns (s : State) (p : Params) (n : Nat) (d : List Byte) : (s.absorbRest p n d).turns = s.turns := by rw [State.absorbRest_frame]

/-- ABSORB writes the counter as well, and nothing else (R145, R146). -/
theorem State.absorb_frame (s : State) (p : Params) (d : List Byte) :
    s.absorb p d =
      { s with chain := (s.absorb p d).chain, acc := (s.absorb p d).acc, col := (s.absorb p d).col, ncomp := (s.absorb p d).ncomp, buf := (s.absorb p d).buf, plen := (s.absorb p d).plen, bitcntLo := (s.absorb p d).bitcntLo, bitcntHi := (s.absorb p d).bitcntHi } := by
  unfold State.absorb
  split
  · rfl
  · dsimp only
    split
    · rfl
    · rw [State.absorbRest_frame]; rfl

@[simp] theorem State.absorb_salt (s : State) (p : Params) (d : List Byte) : (s.absorb p d).salt = s.salt := by rw [State.absorb_frame]
@[simp] theorem State.absorb_salted (s : State) (p : Params) (d : List Byte) : (s.absorb p d).salted = s.salted := by rw [State.absorb_frame]
@[simp] theorem State.absorb_lstate (s : State) (p : Params) (d : List Byte) : (s.absorb p d).lstate = s.lstate := by rw [State.absorb_frame]
@[simp] theorem State.absorb_busy (s : State) (p : Params) (d : List Byte) : (s.absorb p d).busy = s.busy := by rw [State.absorb_frame]
@[simp] theorem State.absorb_latchOp (s : State) (p : Params) (d : List Byte) : (s.absorb p d).latchOp = s.latchOp := by rw [State.absorb_frame]
@[simp] theorem State.absorb_latchLen (s : State) (p : Params) (d : List Byte) : (s.absorb p d).latchLen = s.latchLen := by rw [State.absorb_frame]
@[simp] theorem State.absorb_done (s : State) (p : Params) (d : List Byte) : (s.absorb p d).done = s.done := by rw [State.absorb_frame]
@[simp] theorem State.absorb_err (s : State) (p : Params) (d : List Byte) : (s.absorb p d).err = s.err := by rw [State.absorb_frame]
@[simp] theorem State.absorb_errcode (s : State) (p : Params) (d : List Byte) : (s.absorb p d).errcode = s.errcode := by rw [State.absorb_frame]
@[simp] theorem State.absorb_doneIe (s : State) (p : Params) (d : List Byte) : (s.absorb p d).doneIe = s.doneIe := by rw [State.absorb_frame]
@[simp] theorem State.absorb_errIe (s : State) (p : Params) (d : List Byte) : (s.absorb p d).errIe = s.errIe := by rw [State.absorb_frame]
@[simp] theorem State.absorb_saltIn (s : State) (p : Params) (d : List Byte) : (s.absorb p d).saltIn = s.saltIn := by rw [State.absorb_frame]
@[simp] theorem State.absorb_dataIn (s : State) (p : Params) (d : List Byte) : (s.absorb p d).dataIn = s.dataIn := by rw [State.absorb_frame]
@[simp] theorem State.absorb_stream (s : State) (p : Params) (d : List Byte) : (s.absorb p d).stream = s.stream := by rw [State.absorb_frame]
@[simp] theorem State.absorb_draws (s : State) (p : Params) (d : List Byte) : (s.absorb p d).draws = s.draws := by rw [State.absorb_frame]
@[simp] theorem State.absorb_prog (s : State) (p : Params) (d : List Byte) : (s.absorb p d).prog = s.prog := by rw [State.absorb_frame]
@[simp] theorem State.absorb_reads (s : State) (p : Params) (d : List Byte) : (s.absorb p d).reads = s.reads := by rw [State.absorb_frame]
@[simp] theorem State.absorb_arrays (s : State) (p : Params) (d : List Byte) : (s.absorb p d).arrays = s.arrays := by rw [State.absorb_frame]
@[simp] theorem State.absorb_turns (s : State) (p : Params) (d : List Byte) : (s.absorb p d).turns = s.turns := by rw [State.absorb_frame]

/-- PAD writes BUF and what an overflow block's compression writes (R153). -/
theorem State.pad_frame (s : State) (p : Params) :
    s.pad p =
      { s with chain := (s.pad p).chain, acc := (s.pad p).acc, col := (s.pad p).col, ncomp := (s.pad p).ncomp, buf := (s.pad p).buf } := by
  unfold State.pad
  dsimp only
  split <;> rfl

@[simp] theorem State.pad_salt (s : State) (p : Params) : (s.pad p).salt = s.salt := by rw [State.pad_frame]
@[simp] theorem State.pad_salted (s : State) (p : Params) : (s.pad p).salted = s.salted := by rw [State.pad_frame]
@[simp] theorem State.pad_bitcntLo (s : State) (p : Params) : (s.pad p).bitcntLo = s.bitcntLo := by rw [State.pad_frame]
@[simp] theorem State.pad_bitcntHi (s : State) (p : Params) : (s.pad p).bitcntHi = s.bitcntHi := by rw [State.pad_frame]
@[simp] theorem State.pad_plen (s : State) (p : Params) : (s.pad p).plen = s.plen := by rw [State.pad_frame]
@[simp] theorem State.pad_lstate (s : State) (p : Params) : (s.pad p).lstate = s.lstate := by rw [State.pad_frame]
@[simp] theorem State.pad_busy (s : State) (p : Params) : (s.pad p).busy = s.busy := by rw [State.pad_frame]
@[simp] theorem State.pad_latchOp (s : State) (p : Params) : (s.pad p).latchOp = s.latchOp := by rw [State.pad_frame]
@[simp] theorem State.pad_latchLen (s : State) (p : Params) : (s.pad p).latchLen = s.latchLen := by rw [State.pad_frame]
@[simp] theorem State.pad_done (s : State) (p : Params) : (s.pad p).done = s.done := by rw [State.pad_frame]
@[simp] theorem State.pad_err (s : State) (p : Params) : (s.pad p).err = s.err := by rw [State.pad_frame]
@[simp] theorem State.pad_errcode (s : State) (p : Params) : (s.pad p).errcode = s.errcode := by rw [State.pad_frame]
@[simp] theorem State.pad_doneIe (s : State) (p : Params) : (s.pad p).doneIe = s.doneIe := by rw [State.pad_frame]
@[simp] theorem State.pad_errIe (s : State) (p : Params) : (s.pad p).errIe = s.errIe := by rw [State.pad_frame]
@[simp] theorem State.pad_saltIn (s : State) (p : Params) : (s.pad p).saltIn = s.saltIn := by rw [State.pad_frame]
@[simp] theorem State.pad_dataIn (s : State) (p : Params) : (s.pad p).dataIn = s.dataIn := by rw [State.pad_frame]
@[simp] theorem State.pad_stream (s : State) (p : Params) : (s.pad p).stream = s.stream := by rw [State.pad_frame]
@[simp] theorem State.pad_draws (s : State) (p : Params) : (s.pad p).draws = s.draws := by rw [State.pad_frame]
@[simp] theorem State.pad_prog (s : State) (p : Params) : (s.pad p).prog = s.prog := by rw [State.pad_frame]
@[simp] theorem State.pad_reads (s : State) (p : Params) : (s.pad p).reads = s.reads := by rw [State.pad_frame]
@[simp] theorem State.pad_arrays (s : State) (p : Params) : (s.pad p).arrays = s.arrays := by rw [State.pad_frame]
@[simp] theorem State.pad_turns (s : State) (p : Params) : (s.pad p).turns = s.turns := by rw [State.pad_frame]

@[simp] theorem State.finalHash_salt (s : State) (p : Params) : (s.finalHash p).salt = s.salt := State.pad_salt s p
@[simp] theorem State.finalHash_salted (s : State) (p : Params) : (s.finalHash p).salted = s.salted := State.pad_salted s p
@[simp] theorem State.finalHash_bitcntLo (s : State) (p : Params) : (s.finalHash p).bitcntLo = s.bitcntLo := State.pad_bitcntLo s p
@[simp] theorem State.finalHash_bitcntHi (s : State) (p : Params) : (s.finalHash p).bitcntHi = s.bitcntHi := State.pad_bitcntHi s p
@[simp] theorem State.finalHash_plen (s : State) (p : Params) : (s.finalHash p).plen = 0 := rfl
@[simp] theorem State.finalHash_lstate (s : State) (p : Params) : (s.finalHash p).lstate = .finalized := rfl
@[simp] theorem State.finalHash_busy (s : State) (p : Params) : (s.finalHash p).busy = s.busy := State.pad_busy s p
@[simp] theorem State.finalHash_latchOp (s : State) (p : Params) : (s.finalHash p).latchOp = s.latchOp := State.pad_latchOp s p
@[simp] theorem State.finalHash_latchLen (s : State) (p : Params) : (s.finalHash p).latchLen = s.latchLen := State.pad_latchLen s p
@[simp] theorem State.finalHash_done (s : State) (p : Params) : (s.finalHash p).done = s.done := State.pad_done s p
@[simp] theorem State.finalHash_err (s : State) (p : Params) : (s.finalHash p).err = s.err := State.pad_err s p
@[simp] theorem State.finalHash_errcode (s : State) (p : Params) : (s.finalHash p).errcode = s.errcode := State.pad_errcode s p
@[simp] theorem State.finalHash_doneIe (s : State) (p : Params) : (s.finalHash p).doneIe = s.doneIe := State.pad_doneIe s p
@[simp] theorem State.finalHash_errIe (s : State) (p : Params) : (s.finalHash p).errIe = s.errIe := State.pad_errIe s p
@[simp] theorem State.finalHash_saltIn (s : State) (p : Params) : (s.finalHash p).saltIn = s.saltIn := State.pad_saltIn s p
@[simp] theorem State.finalHash_dataIn (s : State) (p : Params) : (s.finalHash p).dataIn = s.dataIn := State.pad_dataIn s p
@[simp] theorem State.finalHash_stream (s : State) (p : Params) : (s.finalHash p).stream = s.stream := State.pad_stream s p
@[simp] theorem State.finalHash_draws (s : State) (p : Params) : (s.finalHash p).draws = s.draws := State.pad_draws s p
@[simp] theorem State.finalHash_prog (s : State) (p : Params) : (s.finalHash p).prog = s.prog := State.pad_prog s p
@[simp] theorem State.finalHash_reads (s : State) (p : Params) : (s.finalHash p).reads = s.reads := State.pad_reads s p
@[simp] theorem State.finalHash_arrays (s : State) (p : Params) : (s.finalHash p).arrays = s.arrays := State.pad_arrays s p
@[simp] theorem State.finalHash_turns (s : State) (p : Params) : (s.finalHash p).turns = s.turns := State.pad_turns s p

/-- FINAL's writes (R154). -/
theorem State.finalHash_frame (s : State) (p : Params) :
    s.finalHash p =
      { s with chain := (s.finalHash p).chain, acc := (s.finalHash p).acc, col := (s.finalHash p).col, ncomp := (s.finalHash p).ncomp, buf := (s.finalHash p).buf, plen := (s.finalHash p).plen, lstate := (s.finalHash p).lstate } := by
  ext1 <;> simp

@[simp] theorem State.initSaltedHash_salt (s : State) (p : Params) : (s.initSaltedHash p).salt = saltBytes s := by simp [State.initSaltedHash]
@[simp] theorem State.initSaltedHash_salted (s : State) (p : Params) : (s.initSaltedHash p).salted = true := by simp [State.initSaltedHash]
@[simp] theorem State.initSaltedHash_lstate (s : State) (p : Params) : (s.initSaltedHash p).lstate = .accumulating := by simp [State.initSaltedHash]
@[simp] theorem State.initSaltedHash_busy (s : State) (p : Params) : (s.initSaltedHash p).busy = s.busy := by simp [State.initSaltedHash]
@[simp] theorem State.initSaltedHash_latchOp (s : State) (p : Params) : (s.initSaltedHash p).latchOp = s.latchOp := by simp [State.initSaltedHash]
@[simp] theorem State.initSaltedHash_latchLen (s : State) (p : Params) : (s.initSaltedHash p).latchLen = s.latchLen := by simp [State.initSaltedHash]
@[simp] theorem State.initSaltedHash_done (s : State) (p : Params) : (s.initSaltedHash p).done = s.done := by simp [State.initSaltedHash]
@[simp] theorem State.initSaltedHash_err (s : State) (p : Params) : (s.initSaltedHash p).err = s.err := by simp [State.initSaltedHash]
@[simp] theorem State.initSaltedHash_errcode (s : State) (p : Params) : (s.initSaltedHash p).errcode = s.errcode := by simp [State.initSaltedHash]
@[simp] theorem State.initSaltedHash_doneIe (s : State) (p : Params) : (s.initSaltedHash p).doneIe = s.doneIe := by simp [State.initSaltedHash]
@[simp] theorem State.initSaltedHash_errIe (s : State) (p : Params) : (s.initSaltedHash p).errIe = s.errIe := by simp [State.initSaltedHash]
@[simp] theorem State.initSaltedHash_saltIn (s : State) (p : Params) : (s.initSaltedHash p).saltIn = s.saltIn := by simp [State.initSaltedHash]
@[simp] theorem State.initSaltedHash_dataIn (s : State) (p : Params) : (s.initSaltedHash p).dataIn = s.dataIn := by simp [State.initSaltedHash]
@[simp] theorem State.initSaltedHash_stream (s : State) (p : Params) : (s.initSaltedHash p).stream = s.stream := by simp [State.initSaltedHash]
@[simp] theorem State.initSaltedHash_draws (s : State) (p : Params) : (s.initSaltedHash p).draws = s.draws := by simp [State.initSaltedHash]
@[simp] theorem State.initSaltedHash_prog (s : State) (p : Params) : (s.initSaltedHash p).prog = s.prog := by simp [State.initSaltedHash]
@[simp] theorem State.initSaltedHash_reads (s : State) (p : Params) : (s.initSaltedHash p).reads = s.reads := by simp [State.initSaltedHash]
@[simp] theorem State.initSaltedHash_arrays (s : State) (p : Params) : (s.initSaltedHash p).arrays = s.arrays := by simp [State.initSaltedHash]
@[simp] theorem State.initSaltedHash_turns (s : State) (p : Params) : (s.initSaltedHash p).turns = s.turns := by simp [State.initSaltedHash]

/-- INIT_SALTED's writes (R144). -/
theorem State.initSaltedHash_frame (s : State) (p : Params) :
    s.initSaltedHash p =
      { s with chain := (s.initSaltedHash p).chain, acc := (s.initSaltedHash p).acc, col := (s.initSaltedHash p).col, ncomp := (s.initSaltedHash p).ncomp, buf := (s.initSaltedHash p).buf, plen := (s.initSaltedHash p).plen, bitcntLo := (s.initSaltedHash p).bitcntLo, bitcntHi := (s.initSaltedHash p).bitcntHi, salt := (s.initSaltedHash p).salt, salted := (s.initSaltedHash p).salted, lstate := (s.initSaltedHash p).lstate } := by
  ext1 <;> simp

/-- With nothing to absorb, nothing happens (R146, step 1). -/
@[simp] theorem State.absorb_nil (s : State) (p : Params) : s.absorb p [] = s := rfl

/-- Data that does not fill a block is appended (R146, step 3). -/
theorem State.absorb_append (s : State) (p : Params) (d : List Byte) (hd : d ≠ [])
    (h : s.plen.toNat + d.length < 64) :
    s.absorb p d =
      { s.countAdd d.length with
        buf := writeBytes s.buf s.plen.toNat d, plen := BitVec.ofNat 6 (s.plen.toNat + d.length) } := by
  unfold State.absorb
  rw [if_neg hd]
  exact if_pos h

/-- Data that fills a block: one compression, and then the loop on the rest (R146, step 4). -/
theorem State.absorb_fill (s : State) (p : Params) (d : List Byte) (h : 64 ≤ s.plen.toNat + d.length) :
    s.absorb p d =
      State.absorbRest p d.length (d.drop (64 - s.plen.toNat))
        (State.compress p (writeBytes s.buf s.plen.toNat (d.take (64 - s.plen.toNat))) true
          { s.countAdd d.length with
            buf := writeBytes s.buf s.plen.toNat (d.take (64 - s.plen.toNat)) }) := by
  have hr := s.plen.isLt
  have hd : d ≠ [] := by rintro rfl; simp at h; omega
  have hn : ¬ s.plen.toNat + d.length < 64 := by omega
  unfold State.absorb
  rw [if_neg hd]
  exact if_neg hn

/-- The loop on less than a block stores it (R146). -/
theorem State.absorbRest_store (s : State) (p : Params) (n : Nat) (d : List Byte) (h : d.length < 64) :
    s.absorbRest p n d = s.storeRest d := by
  cases n with
  | zero => rfl
  | succ n => unfold State.absorbRest; exact if_pos h

/-- The loop on a block or more compresses its first block (R146). -/
theorem State.absorbRest_block (s : State) (p : Params) (n : Nat) (d : List Byte) (h : 64 ≤ d.length) :
    s.absorbRest p (n + 1) d = (s.compress p (blockOf d) true).absorbRest p n (d.drop 64) := by
  conv => lhs; unfold State.absorbRest
  exact if_neg (by omega)

end Sys2Proof.Machine
end

