-- ==== Sys2Proof/Laws/Absorption.lean ====
section
/-! SUPPORT. What the absorption path and FINAL compute, in terms of byte sequences: the pending bytes
followed by the data are cut into blocks, the whole ones are compressed in order and the rest is kept. -/

namespace Sys2Proof.Machine

theorem length_pendingBytes (s : State) : s.pendingBytes.length = s.plen.toNat := by
  have := s.plen.isLt
  simp only [State.pendingBytes, List.length_take, Vector.length_toList]
  omega

theorem getD_pendingBytes (s : State) (j : Nat) (h : j < s.plen.toNat) :
    s.pendingBytes.getD j 0 = s.buf[j]'(by have := s.plen.isLt; omega) := by
  have hr := s.plen.isLt
  rw [State.pendingBytes, List.getD_eq_getElem?_getD, List.getElem?_take_of_lt h,
    List.getElem?_eq_getElem (by simp; omega)]
  simp

/-- Two blocks made from lists are equal when the lists agree on their first 64 bytes. -/
theorem blockOf_congr {a b : List Byte} (h : ∀ j, j < 64 → a.getD j 0 = b.getD j 0) : blockOf a = blockOf b := by
  ext1 j hj
  simpa using h j hj

theorem getD_drop (t : List Byte) (n j : Nat) : (t.drop n).getD j 0 = t.getD (n + j) 0 := by
  simp [List.getD_eq_getElem?_getD, List.getElem?_drop]

theorem getD_append_left (a b : List Byte) (j : Nat) (h : j < a.length) : (a ++ b).getD j 0 = a.getD j 0 := by
  simp [List.getD_eq_getElem?_getD, List.getElem?_append_left h]

theorem getD_append_right (a b : List Byte) (j : Nat) (h : a.length ≤ j) :
    (a ++ b).getD j 0 = b.getD (j - a.length) 0 := by
  simp [List.getD_eq_getElem?_getD, List.getElem?_append_right h]

theorem getD_take (a : List Byte) (n j : Nat) (h : j < n) : (a.take n).getD j 0 = a.getD j 0 := by
  simp [List.getD_eq_getElem?_getD, List.getElem?_take_of_lt h]

/-- Dropping whole blocks shifts the block index. -/
theorem blockAt_drop (t : List Byte) (k i : Nat) : blockAt (t.drop (64 * k)) i = blockAt t (k + i) := by
  unfold blockAt
  rw [List.drop_drop]
  congr 2
  omega

theorem blockAt_append_left (a b : List Byte) (i : Nat) (h : 64 * (i + 1) ≤ a.length) :
    blockAt (a ++ b) i = blockAt a i := by
  apply blockOf_congr
  intro j hj
  rw [getD_drop, getD_drop, getD_append_left _ _ _ (by omega)]

/-- Fewer than 64 bytes hold no whole block. -/
theorem chainOf_short (p : Params) (salted : Bool) (salt : Block) (c : Words8) (t : List Byte) (h : t.length < 64) :
    chainOf p salted salt c t = c := by
  unfold chainOf
  rw [Nat.div_eq_of_lt h]
  rfl

/-- The chain over a sequence of whole blocks followed by more is the chain over the two in turn. -/
theorem chainOf_append (p : Params) (salted : Bool) (salt : Block) (c : Words8) (a b : List Byte) (k : Nat)
    (ha : a.length = 64 * k) :
    chainOf p salted salt c (a ++ b) = chainOf p salted salt (chainOf p salted salt c a) b := by
  unfold chainOf
  have e1 : (a ++ b).length / 64 = k + b.length / 64 := by rw [List.length_append, ha]; omega
  have e2 : a.length / 64 = k := by omega
  rw [e1, e2, List.range_add, List.foldl_append, List.foldl_map]
  have h1 : ∀ c0, (List.range k).foldl (fun c i => nextChain p c (mixSalt salted salt (blockAt (a ++ b) i))) c0 =
      (List.range k).foldl (fun c i => nextChain p c (mixSalt salted salt (blockAt a i))) c0 := by
    intro c0
    apply List.foldl_ext
    intro x i hi
    rw [blockAt_append_left a b i (by have := List.mem_range.mp hi; omega)]
  rw [h1]
  apply List.foldl_ext
  intro x i _
  have : blockAt (a ++ b) (k + i) = blockAt b i := by
    rw [← blockAt_drop, ← ha, List.drop_left]
  rw [this]

/-- One block in front of a sequence. -/
theorem chainOf_cons_block (p : Params) (salted : Bool) (salt : Block) (c : Words8) (t : List Byte) (h : 64 ≤ t.length) :
    chainOf p salted salt c t =
      chainOf p salted salt (nextChain p c (mixSalt salted salt (blockOf t))) (t.drop 64) := by
  have hl : (t.take 64).length = 64 * 1 := by simp; omega
  conv => lhs; rw [← List.take_append_drop 64 t]
  rw [chainOf_append _ _ _ _ _ _ 1 hl]
  congr 1
  unfold chainOf
  rw [hl]
  have : blockAt (t.take 64) 0 = blockOf t := by
    apply blockOf_congr
    intro j hj
    rw [getD_drop, getD_take _ _ _ (by omega)]
    simp
  simp [List.range_succ, this]

/-- The length of what is pending, as a 6-bit number. -/
theorem toNat_plen (n : Nat) (h : n < 64) : (BitVec.ofNat 6 n).toNat = n := by
  simp only [BitVec.toNat_ofNat]
  omega

/-- Writing at offset 0 and reading back. -/
theorem storeRest_spec (s : State) (d : List Byte) (h : d.length < 64) :
    (s.storeRest d).plen.toNat = d.length ∧
      ∀ (j : Nat) (hj : j < 64), j < d.length → (s.storeRest d).buf[j] = d.getD j 0 := by
  refine ⟨by rw [State.storeRest_plen, toNat_plen _ h], ?_⟩
  intro j hj hd
  simp [hd]

/-- The loop of the absorption path: the whole blocks of the data are compressed in order and the rest
is stored (R146). -/
theorem State.absorbRest_spec (p : Params) (n : Nat) (d : List Byte) (s : State) (hn : d.length ≤ n) :
    (s.absorbRest p n d).chain = chainOf p s.salted s.salt s.chain d ∧
    (s.absorbRest p n d).plen.toNat = d.length % 64 ∧
    (s.absorbRest p n d).ncomp = s.ncomp + BitVec.ofNat 64 (d.length / 64) ∧
    ∀ (j : Nat) (hj : j < 64), j < d.length % 64 →
      (s.absorbRest p n d).buf[j] = d.getD (64 * (d.length / 64) + j) 0 := by
  induction n generalizing d s with
  | zero =>
    have hd : d = [] := List.length_eq_zero_iff.mp (by omega)
    subst hd
    refine ⟨rfl, rfl, ?_, ?_⟩
    · simp [State.absorbRest]
    · intro j hj h; simp at h
  | succ n ih =>
    by_cases h : d.length < 64
    · rw [State.absorbRest_store s p _ d h]
      have e1 : d.length % 64 = d.length := Nat.mod_eq_of_lt h
      have e2 : d.length / 64 = 0 := Nat.div_eq_of_lt h
      obtain ⟨h1, h2⟩ := storeRest_spec s d h
      refine ⟨by rw [chainOf_short _ _ _ _ _ h]; rfl, by rw [h1, e1], by simp [e2], ?_⟩
      intro j hj hd
      rw [h2 j hj (by omega), e2]
      simp
    · have hl : (d.drop 64).length = d.length - 64 := List.length_drop
      have e1 : (d.length - 64) % 64 = d.length % 64 := by omega
      have e2 : d.length / 64 = (d.length - 64) / 64 + 1 := by omega
      rw [State.absorbRest_block s p n d (by omega)]
      obtain ⟨h1, h2, h3, h4⟩ := ih (d.drop 64) (s.compress p (blockOf d) true) (by omega)
      refine ⟨?_, by rw [h2, hl, e1], ?_, ?_⟩
      · rw [h1, chainOf_cons_block _ _ _ _ d (by omega)]
        simp
      · rw [h3, hl, e2, State.compress_ncomp, BitVec.add_assoc]
        congr 1
        rw [BitVec.ofNat_add, BitVec.add_comm]
        rfl
      · intro j hj hd
        rw [h4 j hj (by omega), getD_drop, hl]
        congr 1
        omega

/-- ABSORB in terms of bytes: with `u` the pending bytes followed by the data, the whole blocks of `u`
are compressed in order, the rest of `u` is pending, and NCOMP counts the blocks (R146 to R148). -/
theorem State.absorb_spec (p : Params) (d : List Byte) (s : State) :
    (s.absorb p d).chain = chainOf p s.salted s.salt s.chain (s.pendingBytes ++ d) ∧
    (s.absorb p d).plen.toNat = (s.plen.toNat + d.length) % 64 ∧
    (s.absorb p d).ncomp = s.ncomp + BitVec.ofNat 64 ((s.plen.toNat + d.length) / 64) ∧
    ∀ (j : Nat) (hj : j < 64), j < (s.plen.toNat + d.length) % 64 →
      (s.absorb p d).buf[j] = (s.pendingBytes ++ d).getD (64 * ((s.plen.toNat + d.length) / 64) + j) 0 := by
  have hr := s.plen.isLt
  have hp := length_pendingBytes s
  by_cases hd : d = []
  · subst hd
    have e1 : s.plen.toNat % 64 = s.plen.toNat := Nat.mod_eq_of_lt (by omega)
    have e2 : s.plen.toNat / 64 = 0 := Nat.div_eq_of_lt (by omega)
    refine ⟨?_, by simp [e1], by simp [e2], ?_⟩
    · rw [chainOf_short _ _ _ _ _ (by simp; omega)]; rfl
    · intro j hj h
      have h' : j < s.plen.toNat := by simpa [e1] using h
      simp only [State.absorb_nil, List.length_nil, Nat.add_zero, List.append_nil, e2]
      rw [Nat.mul_zero, Nat.zero_add, getD_pendingBytes s j h']
  by_cases h : s.plen.toNat + d.length < 64
  · have e1 : (s.plen.toNat + d.length) % 64 = s.plen.toNat + d.length := Nat.mod_eq_of_lt h
    have e2 : (s.plen.toNat + d.length) / 64 = 0 := Nat.div_eq_of_lt h
    rw [State.absorb_append s p d hd h, e1, e2]
    refine ⟨?_, toNat_plen _ h, by simp, ?_⟩
    · rw [chainOf_short _ _ _ _ _ (by simp; omega)]; rfl
    · intro j hj hlt
      simp only [getElem_writeBytes, hlt, and_true, Nat.mul_zero, Nat.zero_add]
      by_cases hj2 : s.plen.toNat ≤ j
      · rw [if_pos hj2, getD_append_right _ _ _ (by omega), hp]
      · rw [if_neg hj2, getD_append_left _ _ _ (by omega), getD_pendingBytes s j (by omega)]
  · have hk : (d.drop (64 - s.plen.toNat)).length = s.plen.toNat + d.length - 64 := by
      rw [List.length_drop]; omega
    have hu : (s.pendingBytes ++ d).drop 64 = d.drop (64 - s.plen.toNat) := by
      rw [List.drop_append, List.drop_eq_nil_of_le (by omega), List.nil_append, hp]
    have hb : writeBytes s.buf s.plen.toNat (d.take (64 - s.plen.toNat)) = blockOf (s.pendingBytes ++ d) := by
      have hlt : (d.take (64 - s.plen.toNat)).length = 64 - s.plen.toNat := by
        rw [List.length_take]; omega
      ext1 j hj
      simp only [getElem_writeBytes, getElem_blockOf, hlt]
      by_cases hj2 : s.plen.toNat ≤ j
      · rw [if_pos ⟨hj2, by omega⟩, getD_take _ _ _ (by omega), getD_append_right _ _ _ (by omega), hp]
      · rw [if_neg (by omega), getD_append_left _ _ _ (by omega), getD_pendingBytes s j (by omega)]
    rw [State.absorb_fill s p d (by omega), hb]
    obtain ⟨h1, h2, h3, h4⟩ := State.absorbRest_spec p d.length (d.drop (64 - s.plen.toNat))
      (State.compress p (blockOf (s.pendingBytes ++ d)) true
        { s.countAdd d.length with buf := blockOf (s.pendingBytes ++ d) }) (by rw [List.length_drop]; omega)
    refine ⟨?_, by rw [h2, hk]; omega, ?_, ?_⟩
    · rw [h1, chainOf_cons_block p s.salted s.salt s.chain _ (by rw [List.length_append]; omega), hu]
      simp
    · rw [h3, hk]
      have e : (s.plen.toNat + d.length) / 64 = (s.plen.toNat + d.length - 64) / 64 + 1 := by omega
      rw [e, State.compress_ncomp, BitVec.add_assoc]
      congr 1
      rw [BitVec.ofNat_add, BitVec.add_comm]
      rfl
    · intro j hj hlt
      rw [h4 j hj (by omega), hk, ← hu, getD_drop]
      congr 1
      omega

/-- With nothing pending, a whole block of data is compressed and nothing is pending again (R146). -/
theorem State.absorb_block (p : Params) (d : List Byte) (s : State) (h0 : s.plen.toNat = 0) (hd : d.length = 64) :
    (s.absorb p d).chain = nextChain p s.chain (mixSalt s.salted s.salt (blockOf d)) ∧
    (s.absorb p d).plen = 0 ∧ (s.absorb p d).ncomp = s.ncomp + 1 := by
  obtain ⟨h1, h2, h3, -⟩ := State.absorb_spec p d s
  have hp : s.pendingBytes = [] := List.length_eq_zero_iff.mp ((length_pendingBytes s).trans h0)
  rw [h0, hd] at h2 h3
  refine ⟨?_, BitVec.eq_of_toNat_eq h2, h3⟩
  rw [h1, hp, List.nil_append, chainOf_cons_block _ _ _ _ _ (by omega),
    chainOf_short _ _ _ _ _ (by rw [List.length_drop]; omega)]

/-- A block of zero bytes. -/
theorem blockOf_zeros (n : Nat) : blockOf (List.replicate n 0) = zeroBlock := by
  ext1 j hj
  simp only [getElem_blockOf, getElem_zeroBlock, List.getD_eq_getElem?_getD, List.getElem?_replicate]
  split <;> rfl

/-- A zero block salted is the salt (R149). -/
theorem mixSalt_zeroBlock (salt : Block) : mixSalt true salt zeroBlock = salt := by
  ext1 j hj
  simp

/-- INIT_SALTED's chain value is one compression of the salt from the zero chain, nothing is pending
and one compression is counted (R149). -/
theorem State.initSaltedHash_spec (p : Params) (s : State) :
    (s.initSaltedHash p).chain = nextChain p zeroWords (saltBytes s) ∧
    (s.initSaltedHash p).plen = 0 ∧ (s.initSaltedHash p).ncomp = 1 := by
  obtain ⟨h1, h2, h3⟩ := State.absorb_block p (List.replicate 64 0)
    { s.initHash with salt := saltBytes s, salted := true } rfl List.length_replicate
  refine ⟨h1.trans ?_, h2, h3⟩
  rw [blockOf_zeros]
  exact congrArg _ (mixSalt_zeroBlock _)

/-- The counter after a call: `8n` is added modulo 2^128 (R145). -/
theorem toNat_bitcnt (s : State) : s.bitcnt.toNat = 2 ^ 64 * s.bitcntHi.toNat + s.bitcntLo.toNat := by
  unfold State.bitcnt
  rw [BitVec.toNat_append, Nat.shiftLeft_eq, Nat.mul_comm]
  exact (Nat.two_pow_add_eq_or_of_lt s.bitcntLo.isLt _).symm

/-- A block whose tail is a zero fill, written as bytes. -/
theorem length_paddingBytes (r : Nat) (lo hi : Word) (h : r < 64) :
    r + (paddingBytes r lo hi).length = if r < 48 then 64 else 128 := by
  unfold paddingBytes
  simp only [List.length_append, List.length_replicate, length_le64enc, List.length_cons, List.length_nil]
  split <;> omega

end Sys2Proof.Machine
end

