-- ==== Sys2Proof/Laws/Decode.lean ====
section
/-! SUPPORT. The fields of a command word, and the words and opcodes of the commands. -/

namespace Sys2Proof

theorem opField_append (a : BitVec 49) (l : BitVec 7) (z o : BitVec 4) : opField (a ++ l ++ z ++ o) = o := by
  simp only [opField, BitVec.extractLsb'_append_eq_right]

theorem rsv0Field_append (a : BitVec 49) (l : BitVec 7) (z o : BitVec 4) : rsv0Field (a ++ l ++ z ++ o) = z := by
  ext i hi
  simp only [rsv0Field, BitVec.getElem_extractLsb', BitVec.getLsbD_append]
  have h1 : ¬ 4 + i < 4 := by omega
  have h2 : 4 + i - 4 = i := by omega
  simp [h1, h2, hi, BitVec.getLsbD_eq_getElem]

theorem lenField_append (a : BitVec 49) (l : BitVec 7) (z o : BitVec 4) : lenField (a ++ l ++ z ++ o) = l := by
  ext i hi
  simp only [lenField, BitVec.getElem_extractLsb', BitVec.getLsbD_append]
  have h1 : ¬ 8 + i < 4 := by omega
  have h2 : ¬ 8 + i - 4 < 4 := by omega
  have h3 : 8 + i - 4 - 4 = i := by omega
  simp [h1, h2, h3, hi, BitVec.getLsbD_eq_getElem]

theorem rsv1Field_append (a : BitVec 49) (l : BitVec 7) (z o : BitVec 4) : rsv1Field (a ++ l ++ z ++ o) = a := by
  ext i hi
  simp only [rsv1Field, BitVec.getElem_extractLsb', BitVec.getLsbD_append]
  have h1 : ¬ 15 + i < 4 := by omega
  have h2 : ¬ 15 + i - 4 < 4 := by omega
  have h3 : ¬ 15 + i - 4 - 4 < 7 := by omega
  have h4 : 15 + i - 4 - 4 - 7 = i := by omega
  simp [h1, h2, h3, h4, BitVec.getLsbD_eq_getElem hi]

/-- A command word is made of its four fields (R91). -/
theorem word_eq_fields (w : Word) : w = rsv1Field w ++ lenField w ++ rsv0Field w ++ opField w := by
  ext i hi
  simp only [← BitVec.getLsbD_eq_getElem, BitVec.getLsbD_append, opField, rsv0Field, lenField, rsv1Field,
    BitVec.getLsbD_extractLsb']
  by_cases h0 : i < 4
  · simp [h0]
  · by_cases h1 : i - 4 < 4
    · have e : 4 + (i - 4) = i := by omega
      simp [h0, h1, e]
    · by_cases h2 : i - 4 - 4 < 7
      · have e : 8 + (i - 4 - 4) = i := by omega
        simp [h0, h1, h2, e]
      · have e : 15 + (i - 4 - 4 - 7) = i := by omega
        have h3 : i - 4 - 4 - 7 < 49 := by omega
        simp [h0, h1, h2, h3, e]

@[simp] theorem opField_encode (i : Instr) : opField (encode i) = opcode i := opField_append _ _ _ _

@[simp] theorem rsv0Field_encode (i : Instr) : rsv0Field (encode i) = 0 := rsv0Field_append _ _ _ _

@[simp] theorem lenField_encode (i : Instr) : lenField (encode i) = lenOf i := lenField_append _ _ _ _

@[simp] theorem rsv1Field_encode (i : Instr) : rsv1Field (encode i) = 0 := rsv1Field_append _ _ _ _

@[simp] theorem instrOfFields_opcode (i : Instr) : instrOfFields (opcode i) (lenOf i) = some i := by
  cases i <;> rfl

/-- What an opcode and a length name: the command has that opcode, and UPDATE that length (R93). -/
theorem instrOfFields_some {op : BitVec 4} {len : BitVec 7} {i : Instr} (h : instrOfFields op len = some i) :
    op = opcode i ∧ (op = 0x3#4 → len = lenOf i) := by
  unfold instrOfFields at h
  split at h
  · cases h; subst_vars; exact ⟨rfl, fun h => absurd h (by decide)⟩
  split at h
  · cases h; subst_vars; exact ⟨rfl, fun h => absurd h (by decide)⟩
  split at h
  · cases h; subst_vars; exact ⟨rfl, fun h => absurd h (by decide)⟩
  split at h
  · cases h; subst_vars; exact ⟨rfl, fun _ => rfl⟩
  split at h
  · cases h; subst_vars; exact ⟨rfl, fun h => absurd h (by decide)⟩
  · cases h

/-- What the decoder accepts, field by field (R94). -/
theorem decode_ok {w : Word} {i : Instr} (h : decode w = .ok i) :
    instrOfFields (opField w) (lenField w) = some i ∧ rsv0Field w = 0 ∧ rsv1Field w = 0 ∧
      (opField w = 0x3#4 ∨ lenField w = 0) := by
  unfold decode at h
  split at h
  · cases h
  · rename_i j hj
    split at h
    · cases h
    split at h
    · cases h
    split at h
    · cases h
    · rename_i h0 h1 h2
      cases h
      refine ⟨hj, by simpa using h0, by simpa using h1, ?_⟩
      by_cases h3 : opField w = 0x3#4
      · exact .inl h3
      · exact .inr (by simpa [h3] using h2)

/-- A word the decoder rejects (R94). -/
theorem decode_error {w : Word} {e : DecodeError} (h : decode w = .error e) :
    instrOfFields (opField w) (lenField w) = none ∨ rsv0Field w ≠ 0 ∨ rsv1Field w ≠ 0 ∨
      (opField w ≠ 0x3#4 ∧ lenField w ≠ 0) := by
  unfold decode at h
  split at h
  · rename_i hn; exact .inl hn
  · split at h
    · rename_i h0; exact .inr (.inl h0)
    split at h
    · rename_i h1; exact .inr (.inr (.inl h1))
    split at h
    · rename_i h2; exact .inr (.inr (.inr h2))
    · cases h

end Sys2Proof
end

