-- ==== Sys2Proof/Laws/Finalisation.lean ====
section
/-! SUPPORT. What the padding encoder builds, byte by byte, and what FINAL computes. -/

namespace Sys2Proof.Machine

/-- The bytes of the padding: the marker, zeros, the low word, the high word (R153). -/
theorem getD_paddingBytes (r : Nat) (lo hi : Word) (k : Nat) :
    (paddingBytes r lo hi).getD k 0 =
      let z := if r < 48 then 47 - r else 111 - r
      if k = 0 then 0x80
      else if k < z + 1 then 0
      else if k < z + 9 then wordByte lo (k - (z + 1))
      else if k < z + 17 then wordByte hi (k - (z + 9))
      else 0 := by
  unfold paddingBytes
  generalize (if r < 48 then 47 - r else 111 - r) = z
  dsimp only
  by_cases h0 : k = 0
  · subst h0; rfl
  rw [if_neg h0]
  by_cases h1 : k < z + 1
  · rw [if_pos h1, getD_append_left _ _ _ (by simp; omega), getD_append_left _ _ _ (by simp; omega),
      getD_append_right _ _ _ (by simp; omega)]
    simp only [List.getD_eq_getElem?_getD, List.getElem?_replicate]
    split <;> rfl
  rw [if_neg h1]
  by_cases h2 : k < z + 9
  · rw [if_pos h2, getD_append_left _ _ _ (by simp; omega), getD_append_right _ _ _ (by simp; omega)]
    have e : ([0x80] ++ List.replicate z (0 : Byte)).length = z + 1 := by simp
    rw [e, getD_le64enc _ _ (by omega)]
  rw [if_neg h2]
  have e : ([0x80] ++ List.replicate z (0 : Byte) ++ le64enc lo).length = z + 9 := by simp
  rw [getD_append_right _ _ _ (by omega), e]
  by_cases h3 : k < z + 17
  · rw [if_pos h3, getD_le64enc _ _ (by omega)]
  · rw [if_neg h3, List.getD_eq_getElem?_getD, List.getElem?_eq_none (by simp; omega)]
    rfl

/-- The bytes of a block PAD ends with: what stands below offset 48, then the counter (R153). -/
theorem getElem_storeLength (s : State) (j : Nat) (h : j < 64) :
    s.storeLength.buf[j] =
      if j < 48 then s.buf[j] else if j < 56 then wordByte s.bitcntLo (j - 48) else wordByte s.bitcntHi (j - 56) := by
  simp only [State.storeLength_buf, getElem_writeBytes, length_le64enc]
  by_cases h1 : j < 48
  · rw [if_neg (by omega), if_neg (by omega), if_pos h1]
  rw [if_neg h1]
  by_cases h2 : j < 56
  · rw [if_neg (by omega), if_pos (by omega), if_pos h2, getD_le64enc _ _ (by omega)]
  · rw [if_pos (by omega), if_neg h2, getD_le64enc _ _ (by omega)]

/-- PAD with room for the length: one block, the pending bytes followed by the padding (R153). -/
theorem State.pad_short (p : Params) (s : State) (h : s.plen.toNat < 48) :
    s.pad p = { s with buf := blockOf (s.pendingBytes ++ paddingBytes s.plen.toNat s.bitcntLo s.bitcntHi) } := by
  have hp := length_pendingBytes s
  unfold State.pad
  dsimp only
  rw [if_pos h]
  have hb : ∀ b : Block, ({ s with buf := b } : State).storeLength =
      { s with buf := ({ s with buf := b } : State).storeLength.buf } := fun _ => rfl
  rw [hb]
  congr 1
  ext1 j hj
  rw [getElem_storeLength, getElem_blockOf]
  dsimp only
  simp only [getElem_fillBytes, getElem_writeBytes, List.length_singleton]
  by_cases h1 : j < s.plen.toNat
  · rw [getD_append_left _ _ _ (by omega), getD_pendingBytes s j h1, if_pos (by omega), if_neg (by omega),
      if_neg (by omega)]
  · rw [getD_append_right _ _ _ (by omega), hp, getD_paddingBytes]
    dsimp only
    rw [if_pos h]
    by_cases h2 : j = s.plen.toNat
    · subst h2
      simp [h]
    · by_cases h3 : j < 48
      · rw [if_pos h3, if_pos (by omega), if_neg (by omega), if_pos (by omega)]
      · by_cases h4 : j < 56
        · rw [if_neg h3, if_pos h4, if_neg (by omega), if_neg (by omega), if_pos (by omega)]
          congr 1
          omega
        · rw [if_neg h3, if_neg h4, if_neg (by omega), if_neg (by omega), if_neg (by omega), if_pos (by omega)]
          congr 1
          omega

/-- PAD without room for the length: an overflow block is compressed first, and the length ends a
second block (R153). -/
theorem State.pad_long (p : Params) (s : State) (h : 48 ≤ s.plen.toNat) :
    let u := s.pendingBytes ++ paddingBytes s.plen.toNat s.bitcntLo s.bitcntHi
    s.pad p = { s.compress p (blockOf u) p.saltFinalBlocks with buf := blockOf (u.drop 64) } := by
  have hr := s.plen.isLt
  have hp := length_pendingBytes s
  intro u
  have hfirst : fillBytes (writeBytes s.buf s.plen.toNat [0x80]) (s.plen.toNat + 1) 63 0 = blockOf u := by
    ext1 j hj
    simp only [getElem_fillBytes, getElem_writeBytes, List.length_singleton, getElem_blockOf, u]
    by_cases h1 : j < s.plen.toNat
    · rw [getD_append_left _ _ _ (by omega), getD_pendingBytes s j h1, if_neg (by omega), if_neg (by omega)]
    · rw [getD_append_right _ _ _ (by omega), hp, getD_paddingBytes]
      dsimp only
      rw [if_neg (by omega : ¬ s.plen.toNat < 48)]
      by_cases h2 : j = s.plen.toNat
      · subst h2
        simp
      · rw [if_pos (by omega), if_neg (by omega), if_pos (by omega)]
  unfold State.pad
  dsimp only
  rw [if_neg (by omega), hfirst]
  have hb : ∀ (t : State) (b : Block), ({ t with buf := b } : State).storeLength =
      { t with buf := ({ t with buf := b } : State).storeLength.buf } := fun _ _ => rfl
  rw [hb]
  have hc : ∀ b b' : Block, ({ ({ s with buf := b } : State).compress p b p.saltFinalBlocks with buf := b' } : State) =
      { s.compress p b p.saltFinalBlocks with buf := b' } := fun _ _ => rfl
  rw [hc]
  have hs : ∀ (t : State) (b b' : Block), b = b' → ({ t with buf := b } : State) = { t with buf := b' } :=
    fun _ _ _ h => by rw [h]
  apply hs
  ext1 j hj
  rw [getElem_storeLength, getElem_blockOf, getD_drop]
  dsimp only
  simp only [getElem_fillBytes, u]
  rw [getD_append_right _ _ _ (by omega), hp, getD_paddingBytes,
    if_neg (by omega : ¬ s.plen.toNat < 48)]
  dsimp only
  by_cases h3 : j < 48
  · rw [if_pos h3, if_pos (by omega), if_neg (by omega), if_pos (by omega)]
  · by_cases h4 : j < 56
    · rw [if_neg h3, if_pos h4, if_neg (by omega), if_neg (by omega), if_pos (by omega)]
      simp only [State.compress_bitcntLo]
      congr 1
      omega
    · rw [if_neg h3, if_neg h4, if_neg (by omega), if_neg (by omega), if_neg (by omega),
        if_pos (by omega)]
      simp only [State.compress_bitcntHi]
      congr 1
      omega

/-- FINAL in terms of bytes: the pending bytes followed by the padding are compressed, one block or
two, and counted (R153 to R155). -/
theorem State.finalHash_spec (p : Params) (s : State) :
    (s.finalHash p).chain = chainOf p (p.saltFinalBlocks && s.salted) s.salt s.chain
      (s.pendingBytes ++ paddingBytes s.plen.toNat s.bitcntLo s.bitcntHi) ∧
    (s.finalHash p).ncomp = s.ncomp + (if s.plen.toNat < 48 then 1#64 else 2#64) := by
  have hr := s.plen.isLt
  have hl := length_paddingBytes s.plen.toNat s.bitcntLo s.bitcntHi hr
  have hp := length_pendingBytes s
  unfold State.finalHash
  by_cases h : s.plen.toNat < 48
  · rw [State.pad_short p s h]
    rw [if_pos h] at hl
    refine ⟨?_, by simp [h]⟩
    rw [chainOf_cons_block _ _ _ _ _ (by rw [List.length_append]; omega),
      chainOf_short _ _ _ _ _ (by rw [List.length_drop, List.length_append]; omega)]
    simp
  · rw [State.pad_long p s (by omega)]
    rw [if_neg h] at hl
    refine ⟨?_, ?_⟩
    · rw [chainOf_cons_block _ _ _ _ _ (by rw [List.length_append]; omega),
        chainOf_cons_block _ _ _ _ _ (by rw [List.length_drop, List.length_append]; omega),
        chainOf_short _ _ _ _ _ (by rw [List.length_drop, List.length_drop, List.length_append]; omega)]
      simp
    · simp [h, BitVec.add_assoc]

end Sys2Proof.Machine
end

