-- ==== Sys2Proof/Laws/PerInstr.lean ====
section
/-! SUPPORT. Statements made of every command, one lemma per constructor. -/

namespace Sys2Proof.Laws.EncodedFields

/-- The fields of a command's word are its opcode, its length and zeros (R91, R93). -/
def Statement (i : Instr) : Prop :=
  opField (encode i) = opcode i ∧ lenField (encode i) = lenOf i ∧ rsv0Field (encode i) = 0 ∧ rsv1Field (encode i) = 0

/-- The four fields, for any command. -/
theorem fields (i : Instr) : Statement i :=
  ⟨opField_encode i, lenField_encode i, rsv0Field_encode i, rsv1Field_encode i⟩

theorem nop : Statement .nop := fields _

theorem init : Statement .init := fields _

theorem initSalted : Statement .initSalted := fields _

theorem update (len : BitVec 7) : Statement (.update len) := fields _

theorem final : Statement .final := fields _

end Sys2Proof.Laws.EncodedFields
end

