-- ==== Sys2Proof/Laws/Window.lean ====
section
/-! SUPPORT. The window's map, and everything a bus access can do, said once. -/

namespace Sys2Proof.Machine

/-- A register's offset leads back to it (R62). -/
@[simp] theorem Reg.ofOffset_offset (r : Reg) : Reg.ofOffset r.offset = some r := by
  cases r with
  | digest k => revert k; decide
  | saltIn k => revert k; decide
  | dataIn k => revert k; decide
  | _ => rfl

@[simp] theorem Reg.ofAccess_offset (r : Reg) : Reg.ofAccess 64 r.offset = some r := by
  simp [Reg.ofAccess]

/-- Every slot lies inside the window (R61, R62). -/
theorem Reg.offset_lt (r : Reg) : ¬ windowBytes ≤ r.offset := by
  cases r with
  | digest k => show ¬ 256 ≤ 0x040 + 8 * k.val; omega
  | saltIn k => show ¬ 256 ≤ 0x080 + 8 * k.val; omega
  | dataIn k => show ¬ 256 ≤ 0x0C0 + 8 * k.val; omega
  | _ => decide

/-- A 64-bit write at a register's offset is a write of that register. -/
@[simp] theorem busWrite_offset (r : Reg) (v : Word) (s : State) : busWrite 64 r.offset v s = writeReg r v s := by
  unfold busWrite
  rw [if_neg (Reg.offset_lt r), Reg.ofAccess_offset]

/-- A 64-bit read at a register's offset is a read of that register. -/
@[simp] theorem busRead_offset (p : Params) (r : Reg) (s : State) : busRead p 64 r.offset s = readReg p r s := by
  unfold busRead
  rw [if_neg (Reg.offset_lt r), Reg.ofAccess_offset]

/-! The slots by their offsets, as R62 writes them. -/

@[simp] theorem busWrite_cmd (v : Word) (s : State) : busWrite 64 0x000 v s = writeReg .cmd v s := busWrite_offset .cmd v s
@[simp] theorem busRead_cmd (p : Params) (s : State) : busRead p 64 0x000 s = readReg p .cmd s := busRead_offset p .cmd s
@[simp] theorem busWrite_status (v : Word) (s : State) : busWrite 64 0x008 v s = writeReg .status v s := busWrite_offset .status v s
@[simp] theorem busRead_status (p : Params) (s : State) : busRead p 64 0x008 s = readReg p .status s := busRead_offset p .status s
@[simp] theorem busWrite_ctrl (v : Word) (s : State) : busWrite 64 0x010 v s = writeReg .ctrl v s := busWrite_offset .ctrl v s
@[simp] theorem busRead_ctrl (p : Params) (s : State) : busRead p 64 0x010 s = readReg p .ctrl s := busRead_offset p .ctrl s
@[simp] theorem busWrite_ncomp (v : Word) (s : State) : busWrite 64 0x018 v s = writeReg .ncomp v s := busWrite_offset .ncomp v s
@[simp] theorem busRead_ncomp (p : Params) (s : State) : busRead p 64 0x018 s = readReg p .ncomp s := busRead_offset p .ncomp s
@[simp] theorem busWrite_bitcntLo (v : Word) (s : State) : busWrite 64 0x020 v s = writeReg .bitcntLo v s := busWrite_offset .bitcntLo v s
@[simp] theorem busRead_bitcntLo (p : Params) (s : State) : busRead p 64 0x020 s = readReg p .bitcntLo s := busRead_offset p .bitcntLo s
@[simp] theorem busWrite_bitcntHi (v : Word) (s : State) : busWrite 64 0x028 v s = writeReg .bitcntHi v s := busWrite_offset .bitcntHi v s
@[simp] theorem busRead_bitcntHi (p : Params) (s : State) : busRead p 64 0x028 s = readReg p .bitcntHi s := busRead_offset p .bitcntHi s
@[simp] theorem busWrite_id (v : Word) (s : State) : busWrite 64 0x030 v s = writeReg .id v s := busWrite_offset .id v s
@[simp] theorem busRead_id (p : Params) (s : State) : busRead p 64 0x030 s = readReg p .id s := busRead_offset p .id s
@[simp] theorem busWrite_unmapped (v : Word) (s : State) : busWrite 64 0x038 v s = writeReg .unmapped v s := busWrite_offset .unmapped v s
@[simp] theorem busRead_unmapped (p : Params) (s : State) : busRead p 64 0x038 s = readReg p .unmapped s := busRead_offset p .unmapped s
@[simp] theorem busWrite_digest (k : Fin 8) (v : Word) (s : State) : busWrite 64 (0x040 + 8 * k.val) v s = writeReg (.digest k) v s := busWrite_offset (.digest k) v s
@[simp] theorem busRead_digest (p : Params) (k : Fin 8) (s : State) : busRead p 64 (0x040 + 8 * k.val) s = readReg p (.digest k) s := busRead_offset p (.digest k) s
@[simp] theorem busWrite_saltIn (k : Fin 8) (v : Word) (s : State) : busWrite 64 (0x080 + 8 * k.val) v s = writeReg (.saltIn k) v s := busWrite_offset (.saltIn k) v s
@[simp] theorem busRead_saltIn (p : Params) (k : Fin 8) (s : State) : busRead p 64 (0x080 + 8 * k.val) s = readReg p (.saltIn k) s := busRead_offset p (.saltIn k) s
@[simp] theorem busWrite_dataIn (k : Fin 8) (v : Word) (s : State) : busWrite 64 (0x0C0 + 8 * k.val) v s = writeReg (.dataIn k) v s := busWrite_offset (.dataIn k) v s
@[simp] theorem busRead_dataIn (p : Params) (k : Fin 8) (s : State) : busRead p 64 (0x0C0 + 8 * k.val) s = readReg p (.dataIn k) s := busRead_offset p (.dataIn k) s

/-- Every multiple of 8 below 256 is some slot's offset (R61, R62). -/
theorem Reg.exists_offset {off : Nat} (h : off < 256) (h8 : off % 8 = 0) : ∃ r : Reg, off = r.offset := by
  obtain ⟨k, hk, rfl⟩ : ∃ k, k < 32 ∧ off = 8 * k := ⟨off / 8, by omega, by omega⟩
  by_cases h1 : k < 8
  · interval_cases k
    exacts [⟨.cmd, rfl⟩, ⟨.status, rfl⟩, ⟨.ctrl, rfl⟩, ⟨.ncomp, rfl⟩, ⟨.bitcntLo, rfl⟩, ⟨.bitcntHi, rfl⟩,
      ⟨.id, rfl⟩, ⟨.unmapped, rfl⟩]
  by_cases h2 : k < 16
  · exact ⟨.digest ⟨k - 8, by omega⟩, by show 8 * k = 0x040 + 8 * (k - 8); omega⟩
  by_cases h3 : k < 24
  · exact ⟨.saltIn ⟨k - 16, by omega⟩, by show 8 * k = 0x080 + 8 * (k - 16); omega⟩
  · exact ⟨.dataIn ⟨k - 24, by omega⟩, by show 8 * k = 0x0C0 + 8 * (k - 24); omega⟩

/-- The slot at an offset is the one whose offset it is (R62). -/
theorem Reg.offset_of_ofOffset {off : Nat} {r : Reg} (h : Reg.ofOffset off = some r) : off = r.offset := by
  unfold Reg.ofOffset at h
  by_cases h8 : off % 8 ≠ 0
  · rw [if_pos h8] at h; cases h
  rw [if_neg h8] at h
  by_cases h0' : off = 0x000
  · rw [if_pos h0'] at h; cases h; exact h0'
  rw [if_neg h0'] at h
  by_cases h1' : off = 0x008
  · rw [if_pos h1'] at h; cases h; exact h1'
  rw [if_neg h1'] at h
  by_cases h2' : off = 0x010
  · rw [if_pos h2'] at h; cases h; exact h2'
  rw [if_neg h2'] at h
  by_cases h3' : off = 0x018
  · rw [if_pos h3'] at h; cases h; exact h3'
  rw [if_neg h3'] at h
  by_cases h4' : off = 0x020
  · rw [if_pos h4'] at h; cases h; exact h4'
  rw [if_neg h4'] at h
  by_cases h5' : off = 0x028
  · rw [if_pos h5'] at h; cases h; exact h5'
  rw [if_neg h5'] at h
  by_cases h6' : off = 0x030
  · rw [if_pos h6'] at h; cases h; exact h6'
  rw [if_neg h6'] at h
  by_cases h7' : off = 0x038
  · rw [if_pos h7'] at h; cases h; exact h7'
  rw [if_neg h7'] at h
  by_cases hd : 0x040 ≤ off ∧ off < 0x080
  · rw [dif_pos hd] at h; cases h
    show off = 0x040 + 8 * ((off - 0x040) / 8)
    omega
  rw [dif_neg hd] at h
  by_cases hs : 0x080 ≤ off ∧ off < 0x0C0
  · rw [dif_pos hs] at h; cases h
    show off = 0x080 + 8 * ((off - 0x080) / 8)
    omega
  rw [dif_neg hs] at h
  by_cases ht : 0x0C0 ≤ off ∧ off < 0x100
  · rw [dif_pos ht] at h; cases h
    show off = 0x0C0 + 8 * ((off - 0x0C0) / 8)
    omega
  rw [dif_neg ht] at h
  cases h

/-- The slot an access reaches is the one at its offset, and the access is 64 bits wide (R67). -/
theorem Reg.ofAccess_some {width off : Nat} {r : Reg} (h : Reg.ofAccess width off = some r) :
    width = 64 ∧ off = r.offset := by
  unfold Reg.ofAccess at h
  by_cases hw : width = 64
  · rw [if_pos hw] at h
    exact ⟨hw, Reg.offset_of_ofOffset h⟩
  · rw [if_neg hw] at h
    cases h

/-- Everything a bus write can do (R182 to R199): nothing, record an error, turn a command away, clear
flags, set the enables, set the counter through the test hook, set a staging word, accept a command. -/
theorem busWrite_cases (width off : Nat) (v : Word) (s : State) :
    busWrite width off v s = s ∨
    (∃ c, c ≠ .noError ∧ busWrite width off v s = s.raise c) ∨
    (∃ c, c ≠ .noError ∧ s.busy = false ∧ off = 0 ∧ busWrite width off v s = s.reject c) ∨
    (width = 64 ∧ off = 8 ∧ busWrite width off v s = s.clearFlags v) ∨
    (off = 0x10 ∧ busWrite width off v s = s.setCtrl v) ∨
    (s.busy = false ∧ s.lstate = .accumulating ∧ off = 0x20 ∧ busWrite width off v s = { s with bitcntLo := v }) ∨
    (s.busy = false ∧ s.lstate = .accumulating ∧ off = 0x28 ∧ busWrite width off v s = { s with bitcntHi := v }) ∨
    (s.busy = false ∧ ∃ k : Fin 8, off = 0x80 + 8 * k.val ∧
      busWrite width off v s = { s with saltIn := s.saltIn.set k v }) ∨
    (s.busy = false ∧ ∃ k : Fin 8, off = 0xC0 + 8 * k.val ∧
      busWrite width off v s = { s with dataIn := s.dataIn.set k v }) ∨
    (s.busy = false ∧ off = 0 ∧ ∃ i, decode v = .ok i ∧ admission i s.lstate = none ∧
      busWrite width off v s = s.latch (opField v) (lenField v)) := by
  by_cases hw : windowBytes ≤ off
  · exact .inl (by unfold busWrite; rw [if_pos hw])
  by_cases hr : Reg.ofAccess width off = none
  · exact .inr (.inl ⟨.access, by decide, by unfold busWrite; rw [if_neg hw, hr]⟩)
  obtain ⟨r, hr⟩ := Option.ne_none_iff_exists'.mp hr
  obtain ⟨rfl, rfl⟩ := Reg.ofAccess_some hr
  rw [busWrite_offset]
  cases hb : s.busy with
  | true =>
    cases r with
    | status => exact .inr (.inr (.inr (.inl ⟨rfl, rfl, rfl⟩)))
    | ctrl => exact .inr (.inr (.inr (.inr (.inl ⟨rfl, rfl⟩))))
    | cmd => exact .inr (.inl ⟨.busyWrite, by decide, by simp [writeReg, writeCmd, hb]⟩)
    | bitcntLo => exact .inr (.inl ⟨.busyWrite, by decide, by simp [writeReg, writeHook, hb]⟩)
    | bitcntHi => exact .inr (.inl ⟨.busyWrite, by decide, by simp [writeReg, writeHook, hb]⟩)
    | saltIn k => exact .inr (.inl ⟨.busyWrite, by decide, by simp [writeReg, writeStaging, hb]⟩)
    | dataIn k => exact .inr (.inl ⟨.busyWrite, by decide, by simp [writeReg, writeStaging, hb]⟩)
    | ncomp => exact .inr (.inl ⟨.access, by decide, rfl⟩)
    | id => exact .inr (.inl ⟨.access, by decide, rfl⟩)
    | unmapped => exact .inr (.inl ⟨.access, by decide, rfl⟩)
    | digest k => exact .inr (.inl ⟨.access, by decide, rfl⟩)
  | false =>
    cases r with
    | status => exact .inr (.inr (.inr (.inl ⟨rfl, rfl, rfl⟩)))
    | ctrl => exact .inr (.inr (.inr (.inr (.inl ⟨rfl, rfl⟩))))
    | ncomp => exact .inr (.inl ⟨.access, by decide, rfl⟩)
    | id => exact .inr (.inl ⟨.access, by decide, rfl⟩)
    | unmapped => exact .inr (.inl ⟨.access, by decide, rfl⟩)
    | digest k => exact .inr (.inl ⟨.access, by decide, rfl⟩)
    | saltIn k =>
      exact .inr (.inr (.inr (.inr (.inr (.inr (.inr (.inl ⟨rfl, k, rfl, by simp [writeReg, writeStaging, hb]⟩)))))))
    | dataIn k =>
      exact .inr (.inr (.inr (.inr (.inr (.inr (.inr (.inr (.inl
        ⟨rfl, k, rfl, by simp [writeReg, writeStaging, hb]⟩))))))))
    | bitcntLo =>
      by_cases hl : s.lstate = .accumulating
      · exact .inr (.inr (.inr (.inr (.inr (.inl ⟨rfl, hl, rfl, by simp [writeReg, writeHook, hb, hl]⟩)))))
      · exact .inr (.inl ⟨.invalidState, by decide, by simp [writeReg, writeHook, hb, hl]⟩)
    | bitcntHi =>
      by_cases hl : s.lstate = .accumulating
      · exact .inr (.inr (.inr (.inr (.inr (.inr (.inl ⟨rfl, hl, rfl, by simp [writeReg, writeHook, hb, hl]⟩))))))
      · exact .inr (.inl ⟨.invalidState, by decide, by simp [writeReg, writeHook, hb, hl]⟩)
    | cmd =>
      cases hd : decode v with
      | error e => exact .inr (.inr (.inl ⟨.illegalCmd, by decide, rfl, rfl, by simp [writeReg, writeCmd, hb, hd]⟩))
      | ok i =>
        cases ha : admission i s.lstate with
        | none =>
          exact .inr (.inr (.inr (.inr (.inr (.inr (.inr (.inr (.inr
            ⟨rfl, rfl, i, rfl, ha, by simp [writeReg, writeCmd, hb, hd, ha]⟩))))))))
        | some c =>
          refine .inr (.inr (.inl ⟨c, ?_, rfl, rfl, by simp [writeReg, writeCmd, hb, hd, ha]⟩))
          rintro rfl
          cases i <;> simp [admission] at ha
          split at ha
          · exact absurd ha (by decide)
          · simp at ha

/-- A read of a register that is unspecified while BUSY = 1 changes at most the count of draws (R73). -/
theorem readUnlessBusy_cases (v : Word) (s : State) :
    (readUnlessBusy v s).2 = s ∨ (readUnlessBusy v s).2 = s.drawn := by
  unfold readUnlessBusy
  split
  · exact .inr rfl
  · exact .inl rfl

/-- A read of STATUS changes at most the count of draws (R73, R183). -/
theorem readStatus_cases (s : State) : (readStatus s).2 = s ∨ (readStatus s).2 = s.drawn := by
  unfold readStatus
  split
  · exact .inr rfl
  · exact .inl rfl

/-- Everything a bus read can do to the state (R69): nothing, count a free draw, record ACCESS. -/
theorem busRead_cases (p : Params) (width off : Nat) (s : State) :
    (busRead p width off s).2 = s ∨ (busRead p width off s).2 = s.drawn ∨
      (busRead p width off s).2 = s.raise .access := by
  unfold busRead
  split
  · exact .inr (.inl rfl)
  · split
    · exact .inr (.inr rfl)
    · rename_i r _
      cases r with
      | status => exact (readStatus_cases s).imp_right .inl
      | ncomp => exact (readUnlessBusy_cases _ s).imp_right .inl
      | bitcntLo => exact (readUnlessBusy_cases _ s).imp_right .inl
      | bitcntHi => exact (readUnlessBusy_cases _ s).imp_right .inl
      | unmapped => exact .inr (.inr rfl)
      | _ => exact .inl rfl

end Sys2Proof.Machine
end

