-- ==== Sys2Proof/Laws/Step.lean ====
section
/-! SUPPORT. Everything a step can do, said once: which agent moves, and what its move is. -/

namespace Sys2Proof.Machine

/-- A step is the move of the agent whose turn it is. -/
theorem step_eq (s : State) : step s = takeTurn (nextTurn s) s.popTurn := by
  unfold step nextTurn State.popTurn
  cases h : s.turns with
  | nil =>
    have : { s with turns := [] } = s := by rw [← h]
    simp [this]
  | cons t ts => simp

@[simp] theorem popTurn_turns (s : State) : s.popTurn.turns = s.turns.tail := rfl
@[simp] theorem popTurn_busy (s : State) : s.popTurn.busy = s.busy := rfl
@[simp] theorem popTurn_prog (s : State) : s.popTurn.prog = s.prog := rfl

/-- A command whose admission fails is turned away; one whose admission holds has its effect (R141,
R220). -/
theorem exec_cases (i : Instr) (s : State) :
    (∃ c, admission i s.lstate = some c ∧ exec i s = .next (s.turnAway c)) ∨
    (admission i s.lstate = none ∧
      ((i = .nop ∧ exec i s = .next s.finish) ∨
       (i = .init ∧ exec i s = .next s.initHash.finish) ∨
       (i = .initSalted ∧ exec i s = .next (s.initSaltedHash Config.params).finish) ∨
       (∃ len, i = .update len ∧ exec i s = .next (s.absorb Config.params (dataBytes len s)).finish) ∨
       (i = .final ∧ exec i s = .next (s.finalHash Config.params).finish))) := by
  cases i with
  | nop => exact .inr ⟨rfl, .inl ⟨rfl, rfl⟩⟩
  | init => exact .inr ⟨rfl, .inr (.inl ⟨rfl, rfl⟩)⟩
  | initSalted => exact .inr ⟨rfl, .inr (.inr (.inl ⟨rfl, rfl⟩))⟩
  | update len =>
    cases ha : admission (.update len) s.lstate with
    | none => exact .inr ⟨rfl, .inr (.inr (.inr (.inl ⟨len, rfl, by simp [exec, execUpdate, ha]⟩)))⟩
    | some c => exact .inl ⟨c, rfl, by simp [exec, execUpdate, ha]⟩
  | final =>
    cases ha : admission .final s.lstate with
    | none => exact .inr ⟨rfl, .inr (.inr (.inr (.inr ⟨rfl, by simp [exec, execFinal, ha]⟩)))⟩
    | some c => exact .inl ⟨c, rfl, by simp [exec, execFinal, ha]⟩

/-- The admission of a command never fails with the code NONE. -/
theorem admission_ne_noError {i : Instr} {l : LState} {c : ErrCode} (h : admission i l = some c) : c ≠ .noError := by
  rintro rfl
  cases i <;> simp [admission] at h
  split at h
  · exact absurd h (by decide)
  · simp at h

/-- Everything the host's turn can do when it answers a next state (R96, R98): nothing, a bus write, a
bus read whose value it binds, or a line without a bus effect, which may lay a word into an array. -/
theorem hostTurn_cases {p : Params} {s s' : State} (h : hostTurn p s = .next s') :
    s' = s ∨
    (∃ width off v rest, s.prog = .wr width off v :: rest ∧ s' = { busWrite width off v s with prog := rest }) ∨
    (∃ width off prog reads, s' = { (busRead p width off s).2 with prog := prog, reads := reads }) ∨
    (∃ prog arrays, s' = { s with prog := prog, arrays := arrays }) := by
  unfold hostTurn at h
  split at h
  · cases h; exact .inl rfl
  · rename_i line rest hp
    cases line with
    | wr width off v => cases h; exact .inr (.inl ⟨width, off, v, rest, hp, rfl⟩)
    | rd width off name =>
      simp only [performLine] at h
      cases h
      exact .inr (.inr (.inl ⟨width, off, _, _, rfl⟩))
    | expect name v =>
      simp only [performLine] at h
      split at h
      · cases h
      · split at h
        · cases h; exact .inr (.inr (.inr ⟨rest, s.arrays, rfl⟩))
        · cases h
    | lay out k name =>
      simp only [performLine] at h
      split at h
      · cases h
      · cases h; exact .inr (.inr (.inr ⟨rest, _, rfl⟩))
    | wait =>
      simp only [performLine] at h
      cases h
      exact .inr (.inr (.inl ⟨64, Reg.status.offset, _, _, rfl⟩))

/-- Everything the engine's turn can do when it answers a next state (R141): nothing while BUSY = 0,
and the latched command's completion while BUSY = 1. -/
theorem engineTurn_cases {s s' : State} (h : engineTurn s = .next s') :
    (s.busy = false ∧ s' = s) ∨ (s.busy = true ∧ ∃ i, latchedInstr s = some i ∧ exec i s = .next s') := by
  unfold engineTurn at h
  split at h
  · rename_i hb
    split at h
    · rename_i i hi
      exact .inr ⟨hb, i, hi, h⟩
    · cases h
  · rename_i hb
    cases h
    exact .inl ⟨by simpa using hb, rfl⟩

/-- A step answers a next state only by one of the three agents' moves. -/
theorem step_cases {s s' : State} (h : step s = .next s') :
    (nextTurn s = .host ∧ hostTurn Config.params s.popTurn = .next s') ∨
    (nextTurn s = .engine ∧ engineTurn s.popTurn = .next s') ∨
    (nextTurn s = .reset ∧ s' = resetTurn s.popTurn) := by
  rw [step_eq] at h
  cases ht : nextTurn s with
  | host => rw [ht] at h; exact .inl ⟨rfl, h⟩
  | engine => rw [ht] at h; exact .inr (.inl ⟨rfl, h⟩)
  | reset => rw [ht] at h; cases h; exact .inr (.inr ⟨rfl, rfl⟩)

/-- No access changes which stream of free values the engine draws from (log 6). -/
theorem hostTurn_stream {p : Params} {s s' : State} (h : hostTurn p s = .next s') : s'.stream = s.stream := by
  rcases hostTurn_cases h with rfl | ⟨width, off, v, rest, -, rfl⟩ | ⟨width, off, prog, reads, rfl⟩ |
      ⟨prog, arrays, rfl⟩
  · rfl
  · rcases busWrite_cases width off v s with h | ⟨c, -, h⟩ | ⟨c, -, -, -, h⟩ | ⟨-, -, h⟩ | ⟨-, h⟩ | ⟨-, -, -, h⟩ |
      ⟨-, -, -, h⟩ | ⟨-, k, -, h⟩ | ⟨-, k, -, h⟩ | ⟨-, -, i, -, -, h⟩ <;> simp [h]
  · rcases busRead_cases p width off s with h | h | h <;> simp [h]
  · rfl

/-- No command changes it either. -/
theorem exec_stream {i : Instr} {s s' : State} (h : exec i s = .next s') : s'.stream = s.stream := by
  rcases exec_cases i s with ⟨c, -, h1⟩ | ⟨-, ⟨-, h1⟩ | ⟨-, h1⟩ | ⟨-, h1⟩ | ⟨len, -, h1⟩ | ⟨-, h1⟩⟩ <;>
    (rw [h1] at h; cases h; simp)

/-- Engines that start with streams of their own keep them: no step changes an engine's stream (log 6). -/
theorem step_stream {s s' : State} (h : step s = .next s') : s'.stream = s.stream := by
  rcases step_cases h with ⟨-, h⟩ | ⟨-, h⟩ | ⟨-, rfl⟩
  · exact (hostTurn_stream h).trans rfl
  · rcases engineTurn_cases h with ⟨-, rfl⟩ | ⟨-, i, -, h⟩
    · rfl
    · exact (exec_stream h).trans rfl
  · rfl

end Sys2Proof.Machine
end

