-- ==== Sys2Proof/Laws/Run.lean ====
section
/-! SUPPORT. Runs of several steps: which agent moves when no turn is listed, and what the host lines of
the pseudo-operations do one by one. -/

namespace Sys2Proof.Machine

theorem popTurn_of_nil {s : State} (h : s.turns = []) : s.popTurn = s := by
  cases s
  cases h
  rfl

/-- With no turn listed the host moves while BUSY = 0 (log 1). -/
theorem step_of_idle {s : State} (h : s.turns = []) (hb : s.busy = false) : step s = hostTurn Config.params s := by
  rw [step_eq, popTurn_of_nil h]
  simp [nextTurn, h, defaultTurn, hb, takeTurn]

/-- With no turn listed the engine moves while BUSY = 1 (R251, log 1). -/
theorem step_of_busy {s : State} (h : s.turns = []) (hb : s.busy = true) : step s = engineTurn s := by
  rw [step_eq, popTurn_of_nil h]
  simp [nextTurn, h, defaultTurn, hb, takeTurn]

theorem run_succ_of_step (m : Host.Core) (n : Nat) (s t : m.State) (h : m.step s = .next t) :
    m.run (n + 1) s = m.run n t := by
  simp [Host.Core.run, h]

/-- A run goes on from the state its first step answers. -/
theorem run_succ {s t : State} (n : Nat) (h : step s = .next t) :
    Host.Core.run core (n + 1) s = Host.Core.run core n t :=
  run_succ_of_step core n s t h

/-- An admitted command's completion leaves the host's side, the staging registers and the enables
alone. -/
theorem exec_frame {i : Instr} {s t : State} (ha : admission i s.lstate = none) (h : exec i s = .next t) :
    t.busy = false ∧ t.done = true ∧ t.prog = s.prog ∧ t.turns = s.turns ∧ t.reads = s.reads ∧
      t.dataIn = s.dataIn ∧ t.saltIn = s.saltIn ∧ t.doneIe = s.doneIe ∧ t.errIe = s.errIe ∧
      t.arrays = s.arrays := by
  rcases exec_cases i s with ⟨c, h0, -⟩ | ⟨-, ⟨-, h1⟩ | ⟨-, h1⟩ | ⟨-, h1⟩ | ⟨len, -, h1⟩ | ⟨-, h1⟩⟩
  · rw [ha] at h0
    cases h0
  all_goals (rw [h1] at h; cases h; simp)

/-- Every command's completion step answers a next state. -/
theorem exec_next (i : Instr) (s : State) : ∃ t, exec i s = .next t := by
  rcases exec_cases i s with ⟨c, -, h1⟩ | ⟨-, ⟨-, h1⟩ | ⟨-, h1⟩ | ⟨-, h1⟩ | ⟨len, -, h1⟩ | ⟨-, h1⟩⟩ <;> exact ⟨_, h1⟩

/-- While BUSY = 0 a read of STATUS gives `statusIdle` and changes nothing (R183). -/
theorem busRead_status_idle (p : Params) {s : State} (hb : s.busy = false) :
    busRead p 64 Reg.status.offset s = (statusIdle s, s) := by
  rw [busRead_offset]
  simp only [readReg, readStatus, hb]
  rfl

/-- STATUS reads BUSY as 0 while BUSY = 0 (R183). -/
theorem statusIdle_busy {s : State} (hb : s.busy = false) : (statusIdle s).getLsbD 3 = false := by
  simp [statusIdle, statusWord, hb, flagWord]

/-- `wait` while BUSY = 0 ends at once, with `s` bound to what STATUS reads (R98). -/
theorem step_wait_idle {s : State} {rest : List HostLine} (ht : s.turns = []) (hb : s.busy = false)
    (hp : s.prog = .wait :: rest) :
    step s = .next { s with prog := rest, reads := ("s", statusIdle s) :: s.reads } := by
  rw [step_of_idle ht hb]
  simp only [hostTurn, hp, performLine, busRead_status_idle Config.params hb, statusIdle_busy hb]
  rfl

/-- A `wr` line while BUSY = 0 and no turn is listed (R96). -/
theorem step_wr_idle {s : State} {width off : Nat} {v : Word} {rest : List HostLine} (ht : s.turns = [])
    (hb : s.busy = false) (hp : s.prog = .wr width off v :: rest) :
    step s = .next { busWrite width off v s with prog := rest } := by
  rw [step_of_idle ht hb]
  simp only [hostTurn, hp, performLine]

/-- A `rd` line while BUSY = 0 and no turn is listed (R96). -/
theorem step_rd_idle {s : State} {width off : Nat} {name : String} {rest : List HostLine} (ht : s.turns = [])
    (hb : s.busy = false) (hp : s.prog = .rd width off name :: rest) :
    step s = .next { (busRead Config.params width off s).2 with
      prog := rest, reads := (name, (busRead Config.params width off s).1) :: s.reads } := by
  rw [step_of_idle ht hb]
  simp only [hostTurn, hp, performLine]

@[simp] theorem lookupName_self {α : Type} (name : String) (v : α) (l : List (String × α)) :
    lookupName name ((name, v) :: l) = some v := by
  simp [lookupName]

@[simp] theorem lookupName_other {α : Type} {name other : String} (h : other ≠ name) (v : α)
    (l : List (String × α)) : lookupName other ((name, v) :: l) = lookupName other l := by
  simp [lookupName, Ne.symm h]

/-- The bytes of an array after a word is laid into it (R101). -/
@[simp] theorem getElem_layWord (b : Block) (k : Fin 8) (w : Word) (j : Nat) (h : j < 64) :
    (layWord b k w)[j] = if j / 8 = k.val then wordByte w (j % 8) else b[j] := by
  unfold layWord
  rw [getElem_writeBytes]
  have hl : (le64enc w).length = 8 := by simp [le64enc]
  rw [hl]
  by_cases hk : j / 8 = k.val
  · rw [if_pos hk, if_pos (by omega), show j - 8 * k.val = j % 8 by omega]
    have h8 : j % 8 < 8 := Nat.mod_lt _ (by decide)
    simp [le64enc, List.getD_eq_getElem?_getD, h8]
  · rw [if_neg hk, if_neg (by omega)]

/-- A line that lays a bound name's word into an array, while BUSY = 0 and no turn is listed (R101). -/
theorem step_lay_idle {s : State} {out name : String} {k : Fin 8} {w : Word} {rest : List HostLine}
    (ht : s.turns = []) (hb : s.busy = false) (hp : s.prog = .lay out k name :: rest)
    (hw : lookupName name s.reads = some w) :
    step s = .next { s with prog := rest, arrays := (out, layWord (arrayOf out s) k w) :: s.arrays } := by
  rw [step_of_idle ht hb]
  simp only [hostTurn, hp, performLine, hw]

/-- Eight words laid, one to each place, leave exactly the digest's bytes (R101). -/
theorem foldl_layWord (ws : Words8) (b : Block) :
    (List.finRange 8).foldl (fun (b : Block) (k : Fin 8) => layWord b k ws[k]) b = digestBytes ws := by
  rw [show List.finRange 8 = [0, 1, 2, 3, 4, 5, 6, 7] from rfl]
  simp only [List.foldl]
  ext1 j hj
  simp only [getElem_layWord, digestBytes, byteImage, getElem_tabulate]
  have h : j / 8 = 0 ∨ j / 8 = 1 ∨ j / 8 = 2 ∨ j / 8 = 3 ∨ j / 8 = 4 ∨ j / 8 = 5 ∨ j / 8 = 6 ∨ j / 8 = 7 := by
    omega
  rcases h with h | h | h | h | h | h | h | h <;> simp [h]

/-- One pair of read_digest's lines, in FINALIZED while BUSY = 0 and no turn is listed (R101). -/
theorem run_digest_read {out : String} {k : Fin 8} {s : State} {rest : List HostLine} (n : Nat)
    (hb : s.busy = false) (ht : s.turns = []) (hl : s.lstate = .finalized)
    (hp : s.prog = .rd 64 (Reg.digest k).offset "w" :: .lay out k "w" :: rest) :
    Host.Core.run core (n + 2) s = Host.Core.run core n
      { s with
        prog := rest
        reads := ("w", s.chain[k]) :: s.reads
        arrays := (out, layWord (arrayOf out s) k s.chain[k]) :: s.arrays } := by
  have h1 := step_rd_idle ht hb hp
  have e : busRead Config.params 64 (Reg.digest k).offset s = (s.chain[k], s) := by
    rw [busRead_offset]
    simp [readReg, digestWord, hl, hb]
  rw [e] at h1
  rw [run_succ (n + 1) h1]
  exact run_succ n (step_lay_idle (by exact ht) (by exact hb) rfl (lookupName_self "w" s.chain[k] s.reads))

/-- read_digest's pairs of lines, for any list of places (R101). -/
theorem run_digest_reads (out : String) (ks : List (Fin 8)) (s : State) (rest : List HostLine) (n : Nat)
    (hb : s.busy = false) (ht : s.turns = []) (hl : s.lstate = .finalized)
    (hp : s.prog = (ks.flatMap fun k => [.rd 64 (Reg.digest k).offset "w", .lay out k "w"]) ++ rest) :
    ∃ t : State, Host.Core.run core (n + 2 * ks.length) s = Host.Core.run core n t ∧
      t = { s with prog := rest, reads := t.reads, arrays := t.arrays } ∧
      lookupName "w" t.reads = ks.foldl (fun _ k => some s.chain[k]) (lookupName "w" s.reads) ∧
      lookupName out t.arrays = ks.foldl (fun (o : Option Block) (k : Fin 8) =>
        some (layWord (o.getD zeroBlock) k s.chain[k])) (lookupName out s.arrays) := by
  induction ks generalizing s with
  | nil =>
    refine ⟨s, rfl, ?_, rfl, rfl⟩
    rw [← show s.prog = rest from hp]
  | cons k ks ih =>
    obtain ⟨t, r, e, hw, ha⟩ := ih
      { s with
        prog := (ks.flatMap fun k => [.rd 64 (Reg.digest k).offset "w", .lay out k "w"]) ++ rest
        reads := ("w", s.chain[k]) :: s.reads
        arrays := (out, layWord (arrayOf out s) k s.chain[k]) :: s.arrays } hb ht hl rfl
    refine ⟨t, ?_, e.trans rfl, hw.trans ?_, ha.trans ?_⟩
    · rw [show n + 2 * (k :: ks).length = (n + 2 * ks.length) + 2 by simp; omega, run_digest_read _ hb ht hl hp]
      exact r
    · simp
    · simp [arrayOf]

/-- read_digest in FINALIZED while BUSY = 0: sixteen steps leave the chain's bytes in the array and its last
word in `w`, and change nothing else but what is bound (R101). -/
theorem run_readDigest (out : String) (s : State) (rest : List HostLine) (n : Nat) (hb : s.busy = false)
    (ht : s.turns = []) (hl : s.lstate = .finalized) (hp : s.prog = readDigest out ++ rest) :
    ∃ t : State, Host.Core.run core (n + 16) s = Host.Core.run core n t ∧
      t = { s with prog := rest, reads := t.reads, arrays := t.arrays } ∧
      lookupName "w" t.reads = some s.chain[7] ∧ lookupName out t.arrays = some (digestBytes s.chain) := by
  obtain ⟨t, r, e, hw, ha⟩ := run_digest_reads out (List.finRange 8) s rest n hb ht hl hp
  refine ⟨t, r, e, hw, ha.trans ?_⟩
  rw [← foldl_layWord s.chain ((lookupName out s.arrays).getD zeroBlock)]
  rfl

theorem busWrite_dataIn_idle (k : Fin 8) (v : Word) {s : State} (hb : s.busy = false) :
    busWrite 64 (Reg.dataIn k).offset v s = { s with dataIn := s.dataIn.set k v } := by
  rw [busWrite_offset]
  exact if_neg (by rw [hb]; decide)

theorem busWrite_saltIn_idle (k : Fin 8) (v : Word) {s : State} (hb : s.busy = false) :
    busWrite 64 (Reg.saltIn k).offset v s = { s with saltIn := s.saltIn.set k v } := by
  rw [busWrite_offset]
  exact if_neg (by rw [hb]; decide)

theorem run_dataIn_writes (ks : List (Fin 8)) (ws : Words8) (s : State) (rest : List HostLine) (n : Nat)
    (hb : s.busy = false) (ht : s.turns = [])
    (hp : s.prog = (ks.map fun k => .wr 64 (Reg.dataIn k).offset ws[k]) ++ rest) :
    Host.Core.run core (ks.length + n) s = Host.Core.run core n
      { s with dataIn := ks.foldl (fun (d : Words8) (k : Fin 8) => d.set k ws[k]) s.dataIn, prog := rest } := by
  induction ks generalizing s with
  | nil =>
    have e : ({ s with dataIn := s.dataIn, prog := rest } : State) = s := by rw [← show s.prog = rest from hp]
    simp [e]
  | cons k ks ih =>
    have h := step_wr_idle ht hb hp
    rw [busWrite_dataIn_idle k _ hb] at h
    rw [show (k :: ks).length + n = (ks.length + n) + 1 by simp; omega, run_succ _ h]
    refine (ih _ ?_ ?_ ?_).trans rfl
    · exact hb
    · exact ht
    · rfl

theorem run_saltIn_writes (ks : List (Fin 8)) (ws : Words8) (s : State) (rest : List HostLine) (n : Nat)
    (hb : s.busy = false) (ht : s.turns = [])
    (hp : s.prog = (ks.map fun k => .wr 64 (Reg.saltIn k).offset ws[k]) ++ rest) :
    Host.Core.run core (ks.length + n) s = Host.Core.run core n
      { s with saltIn := ks.foldl (fun (d : Words8) (k : Fin 8) => d.set k ws[k]) s.saltIn, prog := rest } := by
  induction ks generalizing s with
  | nil =>
    have e : ({ s with saltIn := s.saltIn, prog := rest } : State) = s := by rw [← show s.prog = rest from hp]
    simp [e]
  | cons k ks ih =>
    have h := step_wr_idle ht hb hp
    rw [busWrite_saltIn_idle k _ hb] at h
    rw [show (k :: ks).length + n = (ks.length + n) + 1 by simp; omega, run_succ _ h]
    refine (ih _ ?_ ?_ ?_).trans rfl
    · exact hb
    · exact ht
    · rfl

/-- Eight writes, one to each word, leave exactly the words written. -/
theorem foldl_set_words (ws d : Words8) :
    (List.finRange 8).foldl (fun (d : Words8) (k : Fin 8) => d.set k ws[k]) d = ws := by
  rw [show List.finRange 8 = [0, 1, 2, 3, 4, 5, 6, 7] from rfl]
  simp only [List.foldl]
  ext1 i hi
  simp only [Vector.getElem_set]
  have h : i = 0 ∨ i = 1 ∨ i = 2 ∨ i = 3 ∨ i = 4 ∨ i = 5 ∨ i = 6 ∨ i = 7 := by omega
  rcases h with rfl | rfl | rfl | rfl | rfl | rfl | rfl | rfl <;> rfl

end Sys2Proof.Machine
end

