-- ==== Sys2Proof/Machine/Assembler.lean ====
section
/-! DEFINITION. The written form of a host line (30_encoding R96, R97): numbers, register names, comments,
and the lines wr, rd, expect, cmd, wait and read_digest, from the characters of one line of text (log 19). -/

namespace Sys2Proof.Machine

/-- The words of a line: separated by blanks and commas, up to a `;` that starts a comment. `cur` is
the word being read, backwards. -/
def wordsOfLine (cur : List Char) : List Char → List (List Char)
  | [] => if cur = [] then [] else [cur.reverse]
  | c :: cs =>
    if c = ';' then (if cur = [] then [] else [cur.reverse])
    else if c = ' ' ∨ c = ',' ∨ c = '\t' then
      (if cur = [] then wordsOfLine [] cs else cur.reverse :: wordsOfLine [] cs)
    else wordsOfLine (c :: cur) cs

/-- The value of a digit, decimal or hexadecimal. -/
def digitValue (c : Char) : Option Nat :=
  if '0' ≤ c ∧ c ≤ '9' then some (c.toNat - '0'.toNat)
  else if 'a' ≤ c ∧ c ≤ 'f' then some (c.toNat - 'a'.toNat + 10)
  else if 'A' ≤ c ∧ c ≤ 'F' then some (c.toNat - 'A'.toNat + 10)
  else none

/-- The number the digits of a base spell after `acc`; underscores group digits, as the spec's own
examples write them. A word without a digit (`_`, `0x_`) spells 0 here, where R96 does not say whether it
is a number (DESIGN CHOICE, log 19). -/
def numberOfDigits (base acc : Nat) : List Char → Option Nat
  | [] => some acc
  | c :: cs =>
    if c = '_' then numberOfDigits base acc cs
    else
      match digitValue c with
      | none => none
      | some d => if d < base then numberOfDigits base (base * acc + d) cs else none

/-- A number: hexadecimal with `0x`, or decimal (R96). -/
def parseNumber : List Char → Option Nat
  | [] => none
  | ['0', 'x'] => none
  | '0' :: 'x' :: ds => numberOfDigits 16 0 ds
  | ds => numberOfDigits 10 0 ds

/-- A 64-bit value (R96). -/
def parseValue (w : List Char) : Option Word :=
  match parseNumber w with
  | none => none
  | some n => if n < 2 ^ 64 then some (BitVec.ofNat 64 n) else none

/-- The index that ends a register's name, 0 to 7. -/
def parseIndex : List Char → Option (Fin 8)
  | [c] => if h : '0' ≤ c ∧ c.toNat - '0'.toNat < 8 then some ⟨c.toNat - '0'.toNat, h.2⟩ else none
  | _ => none

/-- The register a name stands for (R96). -/
def parseRegister (w : List Char) : Option Reg :=
  if w = "CMD".toList then some .cmd
  else if w = "STATUS".toList then some .status
  else if w = "CTRL".toList then some .ctrl
  else if w = "NCOMP".toList then some .ncomp
  else if w = "BITCNT_LO".toList then some .bitcntLo
  else if w = "BITCNT_HI".toList then some .bitcntHi
  else if w = "ID".toList then some .id
  else if w.take 6 = "DIGEST".toList then (parseIndex (w.drop 6)).map .digest
  else if w.take 7 = "SALT_IN".toList then (parseIndex (w.drop 7)).map .saltIn
  else if w.take 7 = "DATA_IN".toList then (parseIndex (w.drop 7)).map .dataIn
  else none

/-- An offset: a register's name or a number (R96). -/
def parseOffset (w : List Char) : Option Nat :=
  match parseRegister w with
  | some r => some r.offset
  | none => parseNumber w

/-- `cmd MNEMONIC[, LEN]` (R97): UPDATE takes a length, the other commands none. -/
def parseCommand (m : List Char) (args : List (List Char)) : Option HostLine :=
  match args with
  | [] =>
    if m = "NOP".toList then some (cmdLine .nop)
    else if m = "INIT".toList then some (cmdLine .init)
    else if m = "INIT_SALTED".toList then some (cmdLine .initSalted)
    else if m = "FINAL".toList then some (cmdLine .final)
    else none
  | [n] => if m = "UPDATE".toList then (parseNumber n).bind assembleUpdate else none
  | _ => none

/-- One line of a host program (R96); none for text that is no line of the syntax. A blank line and one
that holds a comment only are refused as well, where R96 does not say whether such text is an error or no
line (DESIGN CHOICE, log 19). -/
def parseLine (text : List Char) : Option HostLine :=
  match wordsOfLine [] text with
  | [w] => if w = "wait".toList then some .wait else none
  | [w, a, b] =>
    if w = "wr".toList then
      match parseOffset a, parseValue b with
      | some off, some v => some (.wr 64 off v)
      | _, _ => none
    else if w = "cmd".toList then parseCommand a [b]
    else none
  | [w, a, sep, b] =>
    if w = "rd".toList ∧ sep = "->".toList then (parseOffset a).map fun off => .rd 64 off (String.ofList b)
    else if w = "expect".toList ∧ sep = "==".toList then
      (parseValue b).map fun v => .expect (String.ofList a) v
    else none
  | [w, a] => if w = "cmd".toList then parseCommand a [] else none
  | _ => none

/-- A written line of a host program as the lines it stands for: one, or the expansion of
`read_digest -> OUT` (R101). -/
def parseLines (text : List Char) : Option (List HostLine) :=
  match wordsOfLine [] text with
  | [w, sep, out] =>
    if w = "read_digest".toList ∧ sep = "->".toList then some (readDigest (String.ofList out))
    else (parseLine text).map fun line => [line]
  | _ => (parseLine text).map fun line => [line]

end Sys2Proof.Machine
end

