-- ==== Sys2Proof/Tests/Slice0.lean ====
section
/-! SUPPORT. The model's own tests: decoding words written out bit by bit, the rows of the spec's table of
command words and of its vectors (95_test_vectors), and, for every obligation with hypotheses, a witness
that meets them. -/

namespace Sys2Proof.Machine

/-! ## WellFormed and decoding -/

/-- Ill-formed: LEN 65 (R91, R94). -/
theorem test_update_65_ill_formed : Instr.wellFormed (.update 65) = false := by decide

/-- The boundaries of LEN (R91). -/
theorem test_wellFormed_bounds :
    Instr.wellFormed (.update 0) = true ∧ Instr.wellFormed (.update 64) = true ∧
      Instr.wellFormed (.update 127) = false ∧ Instr.wellFormed .nop = true ∧ Instr.wellFormed .final = true := by
  decide

/-- NOP's word (R93). -/
theorem test_decode_nop :
    decode 0b0000000000000000000000000000000000000000000000000000000000000000#64 = .ok .nop := by decide

/-- INIT's word (R93). -/
theorem test_decode_init :
    decode 0b0000000000000000000000000000000000000000000000000000000000000001#64 = .ok .init := by decide

/-- INIT_SALTED's word (R93). -/
theorem test_decode_initSalted :
    decode 0b0000000000000000000000000000000000000000000000000000000000000010#64 = .ok .initSalted := by decide

/-- UPDATE with LEN 64 and LEN 65: bit 14 is LEN's highest, bit 8 its lowest (R91, R105). -/
theorem test_decode_update :
    decode 0b0000000000000000000000000000000000000000000000000100000000000011#64 = .ok (.update 64) ∧
      decode 0b0000000000000000000000000000000000000000000000000100000100000011#64 = .ok (.update 65) := by decide

/-- FINAL's word (R93). -/
theorem test_decode_final :
    decode 0b0000000000000000000000000000000000000000000000000000000000000100#64 = .ok .final := by decide

/-- The illegal words of 95_test_vectors 2.1, and why each is. -/
theorem test_decode_illegal :
    decode 0x5 = .error .reservedOpcode ∧ decode 0xF = .error .reservedOpcode ∧
      decode 0x101 = .error .strayLen ∧ decode 0x13 = .error .rsv0Set ∧
      decode 0x8000000000000004 = .error .rsv1Set ∧ decode 0x8003 = .error .rsv1Set := by decide

/-! ## The command words of 95_test_vectors 2.1, each run as the first step after reset -/

/-- A field of the state a step answers. -/
def fieldAfter {α : Type} (f : State → α) (o : Host.Outcome State Fault Refusal) : Option α :=
  match o with
  | .next s => some (f s)
  | .fault _ => none
  | .refused _ => none

theorem test_nop_from_reset : fieldAfter statusIdle (step (State.reset.withFetchWord 64 0x0)) = some 0x10 := by decide

theorem test_init_from_reset : fieldAfter statusIdle (step (State.reset.withFetchWord 64 0x1)) = some 0x11 := by decide

theorem test_initSalted_from_reset :
    fieldAfter (fun s => (s.salted, s.lstate, s.ncomp, s.bitcntLo)) (step (State.reset.withFetchWord 64 0x2)) =
      some (true, .accumulating, 1, 0x200) := by decide

/-- Turned away in CREATED (INVALID_STATE), and for its length first (BAD_LEN). -/
theorem test_update_from_reset :
    fieldAfter statusIdle (step (State.reset.withFetchWord 64 0x4003)) = some 0x230 ∧
      fieldAfter statusIdle (step (State.reset.withFetchWord 64 0x4103)) = some 0x330 := by decide

theorem test_final_from_reset : fieldAfter statusIdle (step (State.reset.withFetchWord 64 0x4)) = some 0x230 := by decide

/-- A word no command has is written to CMD by the host: ILLEGAL_CMD. -/
theorem test_reserved_opcode_from_reset :
    fieldAfter statusIdle (step (State.reset.withFetchWord 64 0x5)) = some 0x130 := by decide

/-! ## Small states -/

/-- Just after INIT, with DONE clear. -/
def accState : State := State.reset.initHash

/-- ACCUMULATING with `n` zero bytes pending. -/
def pendingState (n : Nat) : State := { accState with plen := BitVec.ofNat 6 n }

/-- A command latched. -/
def busyState (i : Instr) : State := State.reset.latch (opcode i) (lenOf i)

/-- FINALIZED with the chain value of T_LIN's empty message (95_test_vectors 3.4). -/
def finalState : State :=
  { State.reset with
    chain := #v[0x80, 0x100, 0x180, 0x200, 0x280, 0x300, 0x380, 0x400]
    lstate := .finalized }

/-- An error recorded: INVALID_STATE. -/
def errorState : State := { State.reset with err := true, errcode := .invalidState, done := true }

/-! ## UPDATE, FINAL and the counter: 95_test_vectors 3.3 and 3.4 -/

/-- PLEN 40, LEN 60: one compression, 36 bytes pending. -/
theorem test_update_compresses :
    fieldAfter (fun s => (s.plen, s.ncomp, s.bitcntLo)) (exec (.update 60) (pendingState 40)) =
      some (36, 1, 0x1E0) := by decide

/-- LEN 1 with the low word at its end: the carry of P4. -/
theorem test_update_carries :
    fieldAfter (fun s => (s.plen, s.bitcntLo, s.bitcntHi))
      (exec (.update 1) { accState with bitcntLo := 0xFFFFFFFFFFFFFFF8 }) = some (1, 0, 1) := by decide

/-- PLEN 47 gives one compression and PLEN 48 two (R155). -/
theorem test_final_boundary :
    fieldAfter (fun s => (s.ncomp, s.lstate)) (exec .final (pendingState 47)) = some (1, .finalized) ∧
      fieldAfter (fun s => (s.ncomp, s.plen)) (exec .final (pendingState 48)) = some (2, 0) := by decide

/-- The final block of P4: 00 80 00 ..., then the length words 0 and 1. -/
theorem test_pad_block :
    let s := (({ accState with plen := 1, bitcntHi := 1 } : State).pad ⟨fun _ _ => 0, true⟩)
    s.buf[1] = 0x80 ∧ s.buf[47] = 0 ∧ s.buf[48] = 0 ∧ s.buf[56] = 1 ∧ s.buf[57] = 0 := by decide

/-! ## The matrix engine: 95_test_vectors 3.1 -/

/-- T_LIN (95_test_vectors 0). -/
def tLin : Params := ⟨fun r i => BitVec.ofNat 64 ((r.val + 1) * 2 ^ (i.val % 64)), true⟩

/-- One byte of the compression input set. -/
def oneByte (at' : Nat) (b : Byte) : Vector Byte 128 := tabulate 128 fun j => if j.val = at' then b else 0

/-- CV4: the bits of a byte are taken from the least significant up. -/
theorem test_cv4_bit_order :
    cinBit (oneByte 0 0x80) 7 = 1 ∧ cinBit (oneByte 0 0x80) 0 = 0 ∧ cinBit (oneByte 127 0x80) 1023 = 1 := by decide

set_option maxRecDepth 100000 in
/-- "abc" under T_LIN: the first and the last word of its digest (3.4, P1). -/
theorem test_final_abc :
    let s := (accState.absorb tLin [0x61, 0x62, 0x63]).finalHash tLin
    s.chain[0] = 0x0000000080636279 ∧ s.chain[7] = 0x00000004031b13c8 := by decide +kernel

set_option maxRecDepth 100000 in
/-- INIT_SALTED under T_LIN with SALT_IN0 = 1 (3.2). -/
theorem test_initSalted_chain :
    let s := ({ State.reset with saltIn := #v[1, 0, 0, 0, 0, 0, 0, 0] } : State).initSaltedHash tLin
    s.chain[0] = 1 ∧ s.chain[7] = 8 := by decide +kernel

/-! ## Register accesses: 95_test_vectors 2.2 and P3 -/

theorem test_id : (busRead tLin 64 0x030 State.reset).1 = 0x0000010400084001 := by decide

/-- A 32-bit read of STATUS, and a write at 0x00C. -/
theorem test_access_error :
    (busRead tLin 32 0x008 State.reset).1 = 0 ∧ statusIdle (busRead tLin 32 0x008 State.reset).2 = 0x520 ∧
      statusIdle (busWrite 64 0x00C 1 State.reset) = 0x520 := by decide

/-- An illegal command, with the block idle; a later error does not change the code. -/
theorem test_first_error :
    statusIdle (busWrite 64 0 0x5 State.reset) = 0x130 ∧
      statusIdle (busWrite 64 0x018 5 (busWrite 64 0 0x5 State.reset)) = 0x130 := by decide

/-- BUSY_WRITE while INIT is latched; after completion STATUS is 0x431 and DATA_IN0 still 0 (P3). -/
theorem test_busy_write :
    fieldAfter (fun s => (statusIdle s, s.dataIn[0])) (engineTurn (busWrite 64 0x0C0 0x1234 (busyState .init))) =
      some (0x431, 0) := by decide

/-- DONE = 1, CTRL = 0: enabling the interrupt asserts irq at once. -/
theorem test_irq : irq errorState = false ∧ irq (busWrite 64 0x010 1 errorState) = true := by decide

/-! ## The text of host lines: 30_encoding R96, R97 -/

theorem test_parse_wr :
    parseLine "wr DATA_IN0, 0x636261   ; abc".toList = some (.wr 64 0x0C0 0x636261) := by decide +kernel

theorem test_parse_cmd :
    parseLine "cmd UPDATE, 3".toList = some (.wr 64 0 0x303) ∧ parseLine "cmd UPDATE, 128".toList = none := by
  decide +kernel

theorem test_parse_expect : parseLine "expect s == 0x230".toList = some (.expect "s" 0x230) := by decide +kernel

/-- R101's expansion, and what `w` and the first and last byte of OUT hold after a read and the
assignment: 0x400 is the last word of T_LIN's empty message (95_test_vectors 3.4). -/
theorem test_parse_read_digest :
    parseLines "read_digest -> OUT".toList = some (readDigest "OUT") ∧
      (readDigest "OUT").take 2 = [.rd 64 0x040 "w", .lay "OUT" 0 "w"] ∧ (readDigest "OUT").length = 16 := by
  decide +kernel

theorem test_read_digest_lays :
    let s : State := { finalState with prog := [.lay "OUT" 7 "w"], reads := [("w", 0x400)] }
    fieldAfter (fun t => (arrayOf "OUT" t)[57]) (step s) = some 0x04 ∧
      fieldAfter (fun t => (arrayOf "OUT" t)[56]) (step s) = some 0x00 := by decide

/-! ## Witnesses: for every obligation with hypotheses, operands that meet them -/

/-- The word is the encoding of the command: both sides of the equivalence hold of it. -/
theorem witness_DecodeInvertsEncode : decode 0x4003 = .ok (.update 64) ∧ (0x4003 : Word) = encode (.update 64) := by
  decide

theorem witness_WorkedEncodings : State.reset.busy = false := by decide

theorem witness_AssembledCommands : 0 ≤ 127 ∧ 127 ≤ 127 ∧ 127 < 128 := by decide

/-- A latched UPDATE with LEN 64 and no turn listed, and with an engine turn listed. -/
theorem witness_StepRunsLatchedCommand :
    (busyState (.update 64)).busy = true ∧ decode 0x4003 = .ok (.update 64) ∧
      (busyState (.update 64)).latchOp = opField 0x4003 ∧ (busyState (.update 64)).latchLen = lenField 0x4003 ∧
      (busyState (.update 64)).turns = [] ∧
      ({ busyState (.update 64) with turns := [.engine, .host] } : State).turns = .engine :: [.host] := by decide

theorem witness_FetchedWordRunsNext : decodeTableWord 64 0x4003 = some (.update 64) ∧ decodeTableWord 8 0x4 = some .final := by
  decide

/-- INIT latched after reset meets the invariant. -/
theorem witness_inv_busy : Inv (busyState .init) where
  created := fun _ => by decide
  unsalted := fun _ => by decide
  recorded := by decide
  latched := fun _ => ⟨.init, by decide, by decide⟩

theorem witness_CompletionRaisesNoError :
    Inv (busyState .init) ∧ (busyState .init).busy = true ∧ State.reset.busy = false :=
  ⟨witness_inv_busy, by decide, by decide⟩

theorem witness_AcceptanceLatchesOnly :
    accState.busy = false ∧ decode 0x4003 = .ok (.update 64) ∧ admission (.update 64) accState.lstate = none := by decide

/-- A width that is not 64. -/
theorem witness_CmdWriteCheckOrder : (32 : Nat) ≠ 64 := by decide

/-- One word for each outcome of the chain of checks, at the boundaries: opcode 5, LEN 65, LEN 64. -/
theorem witness_CmdWriteCheckOrder_branches :
    statusIdle (busWrite 64 0 0x5 accState) = 0x131 ∧ statusIdle (busWrite 64 0 0x4103 accState) = 0x331 ∧
      statusIdle (busWrite 64 0 0x4003 State.reset) = 0x230 ∧ (busWrite 64 0 0x4003 accState).busy = true ∧
      (busWrite 64 0 0x4003 (busyState .nop)).errcode = .busyWrite := by decide

theorem witness_InvalidStateRaised :
    State.reset.busy = false ∧ State.reset.lstate ≠ .accumulating ∧ (64#7).toNat ≤ 64 := by decide

theorem witness_FirstErrorIsKept :
    State.reset.err = false ∧ errorState.err = true ∧ (0x20 : Word).getLsbD 5 = true ∧
      ∃ s', step errorState = .next s' :=
  ⟨rfl, rfl, rfl, _, rfl⟩

theorem witness_DoneIsSticky :
    (∃ t, exec .nop State.reset = .next t) ∧
      (State.reset.busy = false ∧ (busWrite 64 0 0x4 State.reset).busy = false) ∧ (0x10 : Word).getLsbD 4 = true ∧
      ∃ s', step errorState = .next s' ∧ errorState.done = true :=
  ⟨⟨_, rfl⟩, ⟨by decide, by decide⟩, rfl, _, rfl, rfl⟩

theorem witness_RejectedCommandFrame :
    State.reset.busy = false ∧ decode 0x5 = .error .reservedOpcode ∧ decode 0x4 = .ok .final ∧
      admission .final State.reset.lstate = some .invalidState ∧ (32 : Nat) ≠ 64 ∧ (busyState .nop).busy = true := by decide

/-- The first and the last staging word's offsets, and a latched command. -/
theorem witness_BusyWritesAreDropped :
    (busyState .init).busy = true ∧ latchedInstr (busyState .init) = some .init ∧
      (0x080 ≤ 0x080 ∧ 0x080 < 0x100 ∧ 0x080 % 8 = 0) ∧ (0x080 ≤ 0x0F8 ∧ 0x0F8 < 0x100 ∧ 0x0F8 % 8 = 0) := by decide

theorem witness_AccessErrors :
    (255 < 256 ∧ 255 % 8 ≠ 0) ∧ (32 ≠ 64 ∧ 0 < 256) ∧ (0x038 < 256) ∧
      (0x040 ≤ 0x040 ∧ 0x040 < 0x080 ∧ 0x040 % 8 = 0) ∧ (0x040 ≤ 0x078 ∧ 0x078 < 0x080 ∧ 0x078 % 8 = 0) := by decide

theorem witness_StatusWriteClears :
    (busyState .init).busy = true ∧ latchedInstr (busyState .init) = some .init := by decide

theorem witness_StatusReads : accState.busy = false := by decide

theorem witness_BusyReadsStayExact : (busyState .final).busy = true := by decide

theorem witness_IrqIsALevel : errorState.done = true ∧ errorState.err = true := by decide

/-- A state for each of the three cases. -/
theorem witness_CounterTestHook :
    (busyState .init).busy = true ∧ (State.reset.busy = false ∧ State.reset.lstate ≠ .accumulating) ∧
      (accState.busy = false ∧ accState.lstate = .accumulating) := by decide

theorem witness_CountersReadBack : accState.busy = false := by decide

theorem witness_StagingReadsBack : State.reset.busy = false ∧ (busyState .init).busy = true := by decide

theorem witness_DigestVisibility :
    (finalState.lstate = .finalized ∧ finalState.busy = false) ∧ accState.lstate ≠ .finalized ∧
      (finalState.latch 1 0).busy = true := by decide

theorem witness_IdIsConstant :
    tLin.saltFinalBlocks = true ∧ ({ tLin with saltFinalBlocks := false } : Params).saltFinalBlocks = false := by decide

theorem witness_ReadsHaveNoSideEffects :
    0x0F8 < 256 ∧ 0x0F8 % 8 = 0 ∧ 0x0F8 ≠ 0x038 ∧ 0 < 256 ∧ 0 % 8 = 0 ∧ State.reset.busy = false := by decide

theorem witness_OutsideWindowNotReached : 256 ≤ 256 := by decide

/-- A host turn, and a FINALIZED state whose chain is the one compared. -/
theorem witness_HostCannotReachHiddenState :
    nextTurn State.reset = .host ∧ (∃ s', step State.reset = .next s') ∧
      (finalState.lstate = .finalized ∧ finalState.busy = false ∧ finalState.chain = finalState.chain) ∧
      accState.lstate ≠ .finalized :=
  ⟨rfl, ⟨_, rfl⟩, ⟨rfl, rfl, rfl⟩, by decide⟩

theorem witness_CompressionClosedForm : (List.finRange 1024).reverse.Perm (List.finRange 1024) := List.reverse_perm _

/-- Bits 0, 511, 512 and 1023: the ends of the two halves. -/
theorem witness_CompressionInputBits :
    (0 : Fin 1024).val < 512 ∧ (511 : Fin 1024).val < 512 ∧ 512 ≤ (512 : Fin 1024).val ∧ 512 ≤ (1023 : Fin 1024).val := by
  decide

theorem getElem_replicate_cin (b : Byte) (i : Fin 1024) :
    cinBit (Vector.replicate 128 b) i = (b >>> (i.val &&& 7)).setWidth 1 := by
  simp [cinBit]

/-- The zero input. -/
theorem witness_CompressionCornerCases_zero (i : Fin 1024) : cinBit (Vector.replicate 128 0) i = 0 := by
  rw [getElem_replicate_cin]
  simp

/-- All ones. -/
theorem witness_CompressionCornerCases_ones (i : Fin 1024) : cinBit (Vector.replicate 128 0xFF) i = 1 := by
  rw [getElem_replicate_cin]
  have h : ∀ k : Fin 8, ((0xFF : Byte) >>> k.val).setWidth 1 = 1 := by decide
  have hk : i.val &&& 7 < 8 := by have := Nat.and_le_right (n := i.val) (m := 7); omega
  exact h ⟨i.val &&& 7, hk⟩

theorem cinBit_tabulate (f : Fin 128 → Byte) (i : Fin 1024) :
    cinBit (tabulate 128 f) i = (f ⟨i.val / 8, by omega⟩ >>> (i.val % 8)).setWidth 1 := by
  have e1 : i.val >>> 3 = i.val / 8 := Nat.shiftRight_eq_div_pow _ _
  have e2 : i.val &&& 7 = i.val % 8 := Nat.and_two_pow_sub_one_eq_mod _ 3
  simp [cinBit, e1, e2]

/-- The bits of 0x80 and of 0. -/
theorem bits_0x80 (k : Nat) (h : k < 8) : ((0x80 : Byte) >>> k).setWidth 1 = if k = 7 then 1#1 else 0#1 := by
  have : ∀ k : Fin 8, ((0x80 : Byte) >>> k.val).setWidth 1 = if k.val = 7 then 1#1 else 0#1 := by decide
  exact this ⟨k, h⟩

/-- One bit set: the last column. -/
theorem witness_CompressionCornerCases_one (j : Fin 1024) :
    cinBit (oneByte 127 0x80) j = if j = 1023 then 1 else 0 := by
  have hj := j.isLt
  rw [oneByte, cinBit_tabulate]
  dsimp only
  by_cases h : j.val / 8 = 127
  · rw [if_pos h, bits_0x80 _ (by omega)]
    by_cases h7 : j.val % 8 = 7
    · rw [if_pos h7, if_pos (by ext; show j.val = 1023; omega)]
      rfl
    · rw [if_neg h7, if_neg (by rintro rfl; exact h7 rfl)]
      rfl
  · rw [if_neg h, if_neg (by rintro rfl; exact h rfl)]
    simp

/-- CV7: columns 63 and 127 hold 2^63 in row 0, and no other column is selected. -/
theorem witness_CompressionCornerCases_wrap :
    let cin : Vector Byte 128 := tabulate 128 fun j => if j.val = 7 ∨ j.val = 15 then 0x80 else 0
    (63 : Fin 1024) ≠ 127 ∧ cinBit cin 63 = 1 ∧ cinBit cin 127 = 1 ∧ tLin.matrix 0 63 = 0x8000000000000000 ∧
      tLin.matrix 0 127 = 0x8000000000000000 ∧
      ∀ k : Fin 1024, k ≠ 63 → k ≠ 127 → cinBit cin k = 1 → tLin.matrix 0 k = 0 := by
  refine ⟨by decide, by decide, by decide, by decide, by decide, ?_⟩
  intro k h1 h2 hk
  exfalso
  have h1' : k.val ≠ 63 := fun h => h1 (Fin.ext h)
  have h2' : k.val ≠ 127 := fun h => h2 (Fin.ext h)
  rw [cinBit_tabulate] at hk
  dsimp only at hk
  by_cases h : k.val / 8 = 7 ∨ k.val / 8 = 15
  · rw [if_pos h, bits_0x80 _ (by omega), if_neg (by omega)] at hk
    exact absurd hk (by decide)
  · rw [if_neg h] at hk
    simp at hk

/-- Nothing pending and LEN 0; and the most that does not fill a block. -/
theorem witness_UpdateAppends :
    accState.lstate = .accumulating ∧ accState.plen.toNat + (0#7).toNat < 64 ∧
      (pendingState 63).lstate = .accumulating ∧ (pendingState 63).plen.toNat + (0#7).toNat < 64 ∧
      accState.plen.toNat + (63#7).toNat < 64 := by decide

/-- A block exactly filled, and the most data on the fullest buffer. -/
theorem witness_UpdateCompresses :
    accState.lstate = .accumulating ∧ (64#7).toNat ≤ 64 ∧ 64 ≤ accState.plen.toNat + (64#7).toNat ∧
      (pendingState 63).lstate = .accumulating ∧ 64 ≤ (pendingState 63).plen.toNat + (1#7).toNat := by decide

theorem witness_FinalCompletes : accState.lstate = .accumulating ∧ (pendingState 63).lstate = .accumulating := by decide

theorem witness_UnadmittedCompletionTurnedAway :
    64 < (65#7).toNat ∧ State.reset.lstate ≠ .accumulating ∧ (64#7).toNat ≤ 64 := by decide

theorem witness_LifecycleTransitions :
    accState.lstate = .accumulating ∧ (64#7).toNat ≤ 64 ∧ finalState.lstate ≠ .accumulating ∧ finalState.busy = false ∧
      Instr.wellFormed (.update 64) = true ∧ opcode (.update 64) = 3 ∧ opcode .final = 4 ∧ finalState.err = false := by
  decide

theorem witness_AbsorbCompressionCount : ([0] : List Byte) ≠ [] ∧ ([] : List Byte) = [] := by decide

/-- Two chunks, one of them empty, on a state that has absorbed nothing. -/
theorem witness_ChunkingInvariance :
    (∀ c ∈ ([List.replicate 64 0, []] : List (List Byte)), 8 * c.length < 2 ^ 64) ∧ Absorbed tLin [] accState := by
  refine ⟨by decide, by decide, rfl, ?_, by decide, rfl⟩
  intro j _ h
  exact absurd h (by simp)

theorem witness_MessageDigest : ∀ c ∈ ([List.replicate 64 0, [1]] : List (List Byte)), c.length ≤ 64 := by decide

theorem witness_ResetAbandonsCommand :
    ({ busyState .init with turns := [.reset] } : State).turns = .reset :: [] := by decide

theorem witness_StepKeepsInvariant : Inv (busyState .init) ∧ ∃ s', step (busyState .init) = .next s' :=
  ⟨witness_inv_busy, _, rfl⟩

/-- A host turn taken while INIT is latched: a write of STATUS. -/
theorem witness_BusyFreezesOperands :
    let s : State := { busyState .init with prog := [.wr 64 0x008 0x10], turns := [.host] }
    s.busy = true ∧ nextTurn s = .host ∧ ∃ s', step s = .next s' :=
  ⟨rfl, rfl, _, rfl⟩

theorem witness_FinalizedStateIsFrozen :
    finalState.lstate = .finalized ∧ ∃ s', step { finalState with prog := [.wr 64 0 0x4] } = .next s' :=
  ⟨rfl, _, rfl⟩

/-- With one byte pending, the other 63 differ. -/
theorem witness_StaleBytesUnobservable :
    SameUpToStale (pendingState 1) { pendingState 1 with buf := (pendingState 1).buf.set 1 0xAA } := by
  refine ⟨rfl, ?_⟩
  intro j h hj
  have hj0 : j = 0 := by
    have : (pendingState 1).plen.toNat = 1 := by decide
    omega
  subst hj0
  rfl

/-- Two engines: a step of the first, and an address the second does not answer when the first does. -/
theorem witness_EnginesAreIndependent :
    let pl : Platform := ⟨[State.reset, accState]⟩
    (∃ pl', (1 : Nat) ≠ 0 ∧ pl.step 0 = .next pl') ∧ pl.engines[0]? = some State.reset ∧
      pl.route (Config.engineBase 0) = some 0 := by
  refine ⟨⟨_, by decide, rfl⟩, rfl, ?_⟩
  simp [Platform.route, List.range_succ, inWindow, windowBytes]

/-- Engines start with streams of free draws of their own, and keep them (log 6). -/
theorem test_engines_draw_apart :
    Platform.reset.engines.map State.stream = List.range Config.numEngines ∧
      ∀ s s' : State, step s = .next s' → s'.stream = s.stream := by
  refine ⟨?_, fun s s' h => step_stream h⟩
  simp [Platform.reset, List.map_map, Function.comp_def]

/-- R98: `wait` binds `s`, over an older value: after INIT STATUS reads 0x11 (95_test_vectors 2.1). -/
theorem test_wait_binds_s :
    let s : State := { accState with done := true, prog := [.wait, .expect "s" 0x11], reads := [("s", 5)] }
    fieldAfter (fun t => lookupName "s" t.reads) (step s) = some (some 0x11) := by decide

theorem witness_WaitEnds :
    let s : State := { busyState .init with prog := [.wait] }
    Inv s ∧ s.busy = true ∧ s.turns = [] ∧ s.prog = .wait :: [] :=
  ⟨⟨witness_inv_busy.created, witness_inv_busy.unsalted, witness_inv_busy.recorded, witness_inv_busy.latched⟩,
    rfl, rfl, rfl⟩

/-- One state for each kind of line; the assertion true and the assertion false. -/
theorem witness_HostLines :
    let s : State := { State.reset with prog := [.expect "s" 1], reads := [("s", 1)] }
    let t : State := { State.reset with prog := [.expect "s" 1], reads := [("s", 2)] }
    ({ State.reset with prog := [.rd 64 0x008 "s"] } : State).prog = .rd 64 0x008 "s" :: [] ∧
      ({ State.reset with prog := [.wait] } : State).prog = .wait :: [] ∧ "OUT0" ≠ "s" ∧
      ({ s with prog := [.lay "OUT" 7 "s"] } : State).prog = .lay "OUT" 7 "s" :: [] ∧ "OUT2" ≠ "OUT" ∧
      ({ State.reset with prog := [.wr 64 0x010 1] } : State).prog = .wr 64 0x010 1 :: [] ∧
      (s.prog = .expect "s" 1 :: [] ∧ lookupName "s" s.reads = some 1) ∧
      t.prog = .expect "s" 1 :: [] ∧ lookupName "s" t.reads = some 2 ∧ (2 : Word) ≠ 1 := by decide

theorem witness_LoadDataPlacesBytes :
    let bs : List Byte := List.replicate 64 1
    let s : State := { State.reset with prog := loadData bs }
    bs.length ≤ 64 ∧ s.busy = false ∧ s.turns = [] ∧ s.prog = loadData bs ++ [] :=
  ⟨by decide, rfl, rfl, (List.append_nil _).symm⟩

theorem witness_LoadSaltPlacesBytes :
    let s : State := { State.reset with prog := loadSalt zeroBlock }
    s.busy = false ∧ s.turns = [] ∧ s.prog = loadSalt zeroBlock ++ [] :=
  ⟨rfl, rfl, (List.append_nil _).symm⟩

theorem witness_UpdateBytesSplits : [0x61] ∈ chunks64 1 [0x61] ∧ ([] : List Byte) = [] := by decide

theorem witness_HashProgramComputesDigest :
    let s : State := { State.reset with prog := hashLines [0x61, 0x62, 0x63] "OUT" }
    s.busy = false ∧ s.turns = [] ∧ s.prog = hashLines [0x61, 0x62, 0x63] "OUT" :=
  ⟨rfl, rfl, rfl⟩

/-- A message of 47 bytes: the longest rest that FINAL pads in one block. -/
theorem witness_HashSaltedProgramComputesDigest :
    let s : State := { State.reset with prog := hashSaltedLines (List.replicate 47 1) (Vector.replicate 64 2) "OUT" }
    s.busy = false ∧ s.turns = [] ∧ s.prog = hashSaltedLines (List.replicate 47 1) (Vector.replicate 64 2) "OUT" :=
  ⟨rfl, rfl, rfl⟩

end Sys2Proof.Machine
end

section
/-! Proofs of the family 10_state: the invariant of R43 with R33 and R141. Each operation a turn is made
of keeps `Inv`; the agents' moves, and so every step, are composed of these. -/

namespace Sys2Proof.Machine

variable {s : State}

/-- `Inv` speaks of the block alone: what the host holds, and the count of free draws, do not matter. -/
theorem Inv.with_host (h : Inv s) (draws : Nat) (prog : List HostLine) (reads : List (String × Word))
    (arrays : List (String × Block)) (turns : List Turn) :
    Inv { s with draws := draws, prog := prog, reads := reads, arrays := arrays, turns := turns } :=
  ⟨h.created, h.unsalted, h.recorded, h.latched⟩

/-- An error with a code of its own leaves ERR and ERRCODE in step (R33, R214). -/
theorem Inv.raise (h : Inv s) {c : ErrCode} (hc : c ≠ .noError) : Inv (s.raise c) where
  created := by simpa using h.created
  unsalted := by simpa using h.unsalted
  recorded := by
    cases he : s.err with
    | true => simpa [he] using h.recorded
    | false => simpa [he] using hc
  latched := by simpa [latchedInstr] using h.latched

theorem Inv.reject (h : Inv s) {c : ErrCode} (hc : c ≠ .noError) : Inv (s.reject c) :=
  ⟨(h.raise hc).created, (h.raise hc).unsalted, (h.raise hc).recorded, (h.raise hc).latched⟩

theorem Inv.turnAway (h : Inv s) {c : ErrCode} (hc : c ≠ .noError) : Inv (s.turnAway c) :=
  ⟨(h.raise hc).created, (h.raise hc).unsalted, (h.raise hc).recorded, fun hb => Bool.noConfusion hb⟩

theorem Inv.clearFlags (h : Inv s) (v : Word) : Inv (s.clearFlags v) where
  created := h.created
  unsalted := h.unsalted
  recorded := by
    rw [State.clearFlags_err, State.clearFlags_errcode]
    cases v.getLsbD 5 with
    | true => exact iff_of_true rfl rfl
    | false => exact h.recorded
  latched := h.latched

theorem Inv.setCtrl (h : Inv s) (v : Word) : Inv (s.setCtrl v) :=
  ⟨h.created, h.unsalted, h.recorded, h.latched⟩

/-- The test hook writes the counter in ACCUMULATING only, of which R43(c) does not speak. -/
theorem Inv.with_bitcnt (h : Inv s) (hl : s.lstate = .accumulating) (lo hi : Word) :
    Inv { s with bitcntLo := lo, bitcntHi := hi } :=
  ⟨fun hc => LState.noConfusion (hl.symm.trans hc), h.unsalted, h.recorded, h.latched⟩

theorem Inv.with_staging (h : Inv s) (saltIn dataIn : Words8) :
    Inv { s with saltIn := saltIn, dataIn := dataIn } :=
  ⟨h.created, h.unsalted, h.recorded, h.latched⟩

/-- Acceptance latches the fields of a word that decodes to an admitted command (R140). -/
theorem Inv.latch (h : Inv s) {v : Word} {i : Instr} (hd : decode v = .ok i)
    (ha : admission i s.lstate = none) : Inv (s.latch (opField v) (lenField v)) :=
  ⟨h.created, h.unsalted, h.recorded, fun _ => ⟨i, (decode_ok hd).1, ha⟩⟩

theorem Inv.busWrite (h : Inv s) (width off : Nat) (v : Word) : Inv (busWrite width off v s) := by
  rcases busWrite_cases width off v s with e | ⟨c, hc, e⟩ | ⟨c, hc, -, -, e⟩ | ⟨-, -, e⟩ | ⟨-, e⟩ |
      ⟨-, hl, -, e⟩ | ⟨-, hl, -, e⟩ | ⟨-, k, -, e⟩ | ⟨-, k, -, e⟩ | ⟨-, -, i, hd, ha, e⟩ <;> rw [e]
  · exact h
  · exact h.raise hc
  · exact h.reject hc
  · exact h.clearFlags v
  · exact h.setCtrl v
  · exact h.with_bitcnt hl v s.bitcntHi
  · exact h.with_bitcnt hl s.bitcntLo v
  · exact h.with_staging _ s.dataIn
  · exact h.with_staging s.saltIn _
  · exact h.latch hd ha

theorem Inv.busRead (h : Inv s) (p : Params) (width off : Nat) : Inv (busRead p width off s).2 := by
  rcases busRead_cases p width off s with e | e | e <;> rw [e]
  · exact h
  · exact h.with_host (s.draws + 1) s.prog s.reads s.arrays s.turns
  · exact h.raise (by decide)

theorem Inv.hostTurn (h : Inv s) {p : Params} {s' : State} (hs : hostTurn p s = .next s') : Inv s' := by
  rcases hostTurn_cases hs with rfl | ⟨width, off, v, rest, -, rfl⟩ | ⟨width, off, prog, reads, rfl⟩ |
      ⟨prog, arrays, rfl⟩
  · exact h
  · exact (h.busWrite width off v).with_host _ rest _ _ _
  · exact (h.busRead p width off).with_host _ prog reads _ _
  · exact h.with_host s.draws prog s.reads arrays s.turns

/-- A completion that leaves CREATED behind, leaves ERR and ERRCODE alone and zeroes SALT unless it salts
keeps the invariant; BUSY = 0 after it, so the latch is free (R141). -/
theorem Inv.of_completion (h : Inv s) {t : State} (hl : t.lstate ≠ .created)
    (hs : t.salted = false → t.salt = zeroBlock) (he : t.err = s.err) (hc : t.errcode = s.errcode) :
    Inv t.finish where
  created := fun h0 => absurd h0 hl
  unsalted := hs
  recorded := by simpa [he, hc] using h.recorded
  latched := fun hb => Bool.noConfusion hb

/-- UPDATE is admitted in ACCUMULATING only (R152). -/
theorem accumulating_of_admission_update {len : BitVec 7} {l : LState}
    (h : admission (.update len) l = none) : l = .accumulating := by
  simp only [admission] at h
  split at h
  · cases h
  · simpa using h

theorem Inv.exec (h : Inv s) {i : Instr} {t : State} (ht : exec i s = .next t) : Inv t := by
  rcases exec_cases i s with ⟨c, ha, e⟩ | ⟨ha, ⟨-, e⟩ | ⟨-, e⟩ | ⟨-, e⟩ | ⟨len, rfl, e⟩ | ⟨-, e⟩⟩ <;>
    (rw [e] at ht; cases ht)
  · exact h.turnAway (admission_ne_noError ha)
  · exact ⟨h.created, h.unsalted, h.recorded, fun hb => Bool.noConfusion hb⟩
  · exact h.of_completion (t := s.initHash) (by simp) (fun _ => rfl) rfl rfl
  · exact h.of_completion (by simp) (by simp) (by simp) (by simp)
  · have hl := accumulating_of_admission_update ha
    exact h.of_completion (by simp [hl]) (by simpa using h.unsalted) (by simp) (by simp)
  · exact h.of_completion (by simp) (by simpa using h.unsalted) (by simp) (by simp)

theorem Inv.engineTurn (h : Inv s) {s' : State} (hs : engineTurn s = .next s') : Inv s' := by
  rcases engineTurn_cases hs with ⟨-, rfl⟩ | ⟨-, i, -, e⟩
  · exact h
  · exact h.exec e

/-- Settles O48: every field of the reset state is zero, and no command is latched. -/
theorem resetMeetsInvariant : Obligations.ResetMeetsInvariant where
  created := fun _ => ⟨rfl, rfl, rfl, rfl, rfl, rfl, rfl, rfl⟩
  unsalted := fun _ => rfl
  recorded := by decide
  latched := fun hb => Bool.noConfusion hb

theorem inv_resetTurn (s : State) : Inv (resetTurn s) :=
  ⟨resetMeetsInvariant.created, resetMeetsInvariant.unsalted, resetMeetsInvariant.recorded,
    resetMeetsInvariant.latched⟩

/-- Settles O49: each agent's move keeps the invariant. -/
theorem stepKeepsInvariant : Obligations.StepKeepsInvariant := by
  intro s s' h hs
  have hp : Inv s.popTurn := h.with_host s.draws s.prog s.reads s.arrays s.turns.tail
  rcases step_cases hs with ⟨-, e⟩ | ⟨-, e⟩ | ⟨-, rfl⟩
  · exact hp.hostTurn e
  · exact hp.engineTurn e
  · exact inv_resetTurn s.popTurn

end Sys2Proof.Machine
end

section
/-! Proofs of the family 10_state: the sticky flags DONE and ERR with ERRCODE (R32, R33) and irq (R42).
`step_flags` says once what a step can do to the flags. -/

namespace Sys2Proof.Machine

variable {s t : State}

/-- A set DONE and a recorded error of the first state stand in the second. -/
structure FlagsHeld (s t : State) : Prop where
  /-- DONE stays 1 (R32). -/
  done : s.done = true → t.done = true
  /-- ERR stays 1 and ERRCODE keeps the first error's code (R33). -/
  err : s.err = true → t.err = true ∧ t.errcode = s.errcode

/-- Of all bus writes, only a 64-bit write of STATUS can take a flag back (R184). -/
theorem busWrite_flags (width off : Nat) (v : Word) (s : State) :
    (width = 64 ∧ off = 8 ∧ busWrite width off v s = s.clearFlags v) ∨ FlagsHeld s (busWrite width off v s) := by
  rcases busWrite_cases width off v s with e | ⟨c, -, e⟩ | ⟨c, -, -, -, e⟩ | h | ⟨-, e⟩ |
      ⟨-, -, -, e⟩ | ⟨-, -, -, e⟩ | ⟨-, k, -, e⟩ | ⟨-, k, -, e⟩ | ⟨-, -, i, -, -, e⟩
  case inr.inr.inr.inl => exact .inl h
  all_goals
    refine .inr ?_
    rw [e]
    constructor <;> intro h <;> simp [h]

/-- No bus read takes a flag back (R69). -/
theorem busRead_flags (p : Params) (width off : Nat) (s : State) : FlagsHeld s (busRead p width off s).2 := by
  rcases busRead_cases p width off s with e | e | e <;> rw [e] <;> constructor <;> intro h <;> simp [h]

/-- A write of STATUS with bit 4 clear leaves DONE alone (R184). -/
theorem clearFlags_done_of_bit4 {v : Word} (h4 : v.getLsbD 4 = false) : (s.clearFlags v).done = s.done := by
  rw [State.clearFlags_done, h4]
  rfl

/-- A write of STATUS with bit 5 clear leaves ERR and ERRCODE alone (R184). -/
theorem clearFlags_error_of_bit5 {v : Word} (h5 : v.getLsbD 5 = false) :
    (s.clearFlags v).err = s.err ∧ (s.clearFlags v).errcode = s.errcode := by
  rw [State.clearFlags_err, State.clearFlags_errcode, h5]
  exact ⟨rfl, rfl⟩

/-- Of the host's lines, only a write of STATUS can take a flag back. -/
theorem hostTurn_flags {p : Params} {s' : State} (h : hostTurn p s = .next s') :
    FlagsHeld s s' ∨ ∃ v rest, s.prog = .wr 64 0x008 v :: rest ∧ s' = { s.clearFlags v with prog := rest } := by
  rcases hostTurn_cases h with rfl | ⟨width, off, v, rest, hp, rfl⟩ | ⟨width, off, prog, reads, rfl⟩ |
      ⟨prog, arrays, rfl⟩
  · exact .inl ⟨id, fun h => ⟨h, rfl⟩⟩
  · rcases busWrite_flags width off v s with ⟨rfl, rfl, e⟩ | ⟨hd, he⟩
    · exact .inr ⟨v, rest, hp, by rw [e]⟩
    · exact .inl ⟨hd, he⟩
  · obtain ⟨hd, he⟩ := busRead_flags p width off s
    exact .inl ⟨hd, he⟩
  · exact .inl ⟨id, fun h => ⟨h, rfl⟩⟩

/-- Every completion sets DONE, one that is turned away included (R141, R220). -/
theorem exec_done {i : Instr} (h : exec i s = .next t) : t.done = true := by
  rcases exec_cases i s with ⟨c, -, e⟩ | ⟨-, ⟨-, e⟩ | ⟨-, e⟩ | ⟨-, e⟩ | ⟨len, -, e⟩ | ⟨-, e⟩⟩ <;>
    (rw [e] at h; cases h; simp)

/-- No completion takes a flag back (R32, R33). -/
theorem exec_flags {i : Instr} (h : exec i s = .next t) : FlagsHeld s t := by
  refine ⟨fun _ => exec_done h, fun he => ?_⟩
  rcases exec_cases i s with ⟨c, -, e⟩ | ⟨-, ⟨-, e⟩ | ⟨-, e⟩ | ⟨-, e⟩ | ⟨len, -, e⟩ | ⟨-, e⟩⟩ <;>
    (rw [e] at h; cases h; simp [he])

theorem engineTurn_flags {s' : State} (h : engineTurn s = .next s') : FlagsHeld s s' := by
  rcases engineTurn_cases h with ⟨-, rfl⟩ | ⟨-, i, -, e⟩
  · exact ⟨id, fun h => ⟨h, rfl⟩⟩
  · exact exec_flags e

/-- A step keeps what the flags hold, or it is reset, or the host's write of STATUS (R32, R33). -/
theorem step_flags {s' : State} (h : step s = .next s') :
    FlagsHeld s s' ∨ nextTurn s = .reset ∨
      (nextTurn s = .host ∧ ∃ v rest, s.prog = .wr 64 0x008 v :: rest ∧
        s' = { s.popTurn.clearFlags v with prog := rest }) := by
  rcases step_cases h with ⟨hn, e⟩ | ⟨-, e⟩ | ⟨hn, -⟩
  · rcases hostTurn_flags e with ⟨hd, he⟩ | hw
    · exact .inl ⟨hd, he⟩
    · exact .inr (.inr ⟨hn, hw⟩)
  · obtain ⟨hd, he⟩ := engineTurn_flags e
    exact .inl ⟨hd, he⟩
  · exact .inr (.inl hn)

/-- A CMD write while BUSY = 0 is turned away or accepted (R218). -/
theorem writeCmd_idle (v : Word) (hb : s.busy = false) :
    (∃ c, writeCmd v s = s.reject c) ∨ writeCmd v s = s.latch (opField v) (lenField v) := by
  unfold writeCmd
  rw [if_neg (by simp [hb])]
  split
  · exact .inl ⟨_, rfl⟩
  · split
    · exact .inl ⟨_, rfl⟩
    · exact .inr rfl

/-- Settles O11: `raise` keeps a recorded error, and so does every step but a STATUS write and reset. -/
theorem firstErrorIsKept : Obligations.FirstErrorIsKept := by
  refine ⟨fun s c => ⟨fun h => by simp [State.raise, h], fun h => by simp [State.raise, h]⟩,
    fun s v h5 => by simp [writeReg, h5], fun s => ⟨rfl, rfl⟩, fun s s' h he => ?_⟩
  rcases step_flags h with hk | hr | ⟨hn, v, rest, hp, rfl⟩
  · exact .inl (hk.err he)
  · exact .inr (.inl hr)
  · cases h5 : v.getLsbD 5 with
    | true => exact .inr (.inr ⟨hn, v, rest, hp, h5⟩)
    | false =>
      obtain ⟨h1, h2⟩ := clearFlags_error_of_bit5 (s := s.popTurn) h5
      exact .inl ⟨h1.trans he, h2⟩

/-- Settles O12: completions and rejections set DONE, and only a STATUS write and reset clear it. -/
theorem doneIsSticky : Obligations.DoneIsSticky := by
  refine ⟨fun i s t => exec_done, fun s v hb hb' => ?_, fun s v h4 => by simp [writeReg, h4], fun s => rfl,
    fun s s' h hd => ?_⟩
  · rw [busWrite_cmd] at hb' ⊢
    rcases writeCmd_idle v hb with ⟨c, e⟩ | e
    · simp [writeReg, e]
    · simp [writeReg, e] at hb'
  · rcases step_flags h with hk | hr | ⟨hn, v, rest, hp, rfl⟩
    · exact .inl (hk.done hd)
    · exact .inr (.inl hr)
    · cases h4 : v.getLsbD 4 with
      | true => exact .inr (.inr ⟨hn, v, rest, hp, h4⟩)
      | false => exact .inl ((clearFlags_done_of_bit4 (s := s.popTurn) h4).trans hd)

/-- Settles O20: irq is read off the flags and enables a STATUS or CTRL write leaves. -/
theorem irqIsALevel : Obligations.IrqIsALevel := by
  intro s
  simp only [busWrite_status, busWrite_ctrl, writeReg]
  refine ⟨rfl, ?_, ?_, fun hd => ?_, fun he => ?_, ?_⟩
  · simp [irq]
  · simp [irq]
  · simp [irq, hd]
  · simp [irq, he]
  · simp [irq]

end Sys2Proof.Machine
end

section
/-! Proofs of the family 10_state: ACC, COL and the stale bytes of BUF are never observed (R44). Two states
that agree but for these are one state and the same state with other hidden values. The host's and the
platform's moves do not look at the hidden values; a completion works on the pending bytes alone. -/

namespace Sys2Proof.Machine

variable {s t : State}

/-- The state with other values of ACC, COL and BUF. -/
def State.withHidden (s : State) (acc : Words8) (col : BitVec 10) (buf : Block) : State :=
  { s with acc := acc, col := col, buf := buf }

/-- Agreement up to the stale bytes: other hidden values, and the same pending bytes (R44). -/
theorem sameUpToStale_iff :
    SameUpToStale s t ↔ ∃ acc col buf, t = s.withHidden acc col buf ∧
      ∀ (j : Nat) (h : j < 64), j < s.plen.toNat → s.buf[j] = buf[j] := by
  constructor
  · intro h
    exact ⟨t.acc, t.col, t.buf, h.rest.symm, h.pending⟩
  · rintro ⟨acc, col, buf, rfl, h⟩
    exact ⟨rfl, h⟩

@[simp] theorem withHidden_busy (acc : Words8) (col : BitVec 10) (buf : Block) :
    (s.withHidden acc col buf).busy = s.busy := rfl
@[simp] theorem withHidden_lstate (acc : Words8) (col : BitVec 10) (buf : Block) :
    (s.withHidden acc col buf).lstate = s.lstate := rfl

/-- An operation that neither looks at ACC, COL and BUF nor writes them. -/
def Blind (f : State → State) : Prop :=
  ∀ (s : State) (acc : Words8) (col : BitVec 10) (buf : Block),
    f (s.withHidden acc col buf) = (f s).withHidden acc col buf

/-- What does not look at the hidden values, and leaves PLEN alone, keeps the agreement. -/
theorem Blind.sameUpToStale {f : State → State} (hf : Blind f) (hp : (f s).plen = s.plen)
    (h : SameUpToStale s t) : SameUpToStale (f s) (f t) := by
  obtain ⟨acc, col, buf, rfl, hj⟩ := sameUpToStale_iff.mp h
  have hs : f s = (f s).withHidden s.acc s.col s.buf := hf s s.acc s.col s.buf
  have hb : (f s).buf = s.buf := by rw [hs]; rfl
  exact sameUpToStale_iff.mpr ⟨acc, col, buf, hf s acc col buf, by simpa only [hp, hb] using hj⟩

/-- Agreeing states are equal in whatever does not look at the hidden values. -/
theorem SameUpToStale.view_eq {α : Type} (h : SameUpToStale s t) (f : State → α)
    (hf : ∀ (s : State) (acc : Words8) (col : BitVec 10) (buf : Block), f (s.withHidden acc col buf) = f s) :
    f t = f s := by
  obtain ⟨acc, col, buf, rfl, -⟩ := sameUpToStale_iff.mp h
  exact hf s acc col buf

/-! ## Bus accesses -/

section

variable (acc : Words8) (col : BitVec 10) (buf : Block)

@[simp] theorem raise_withHidden (c : ErrCode) :
    (s.withHidden acc col buf).raise c = (s.raise c).withHidden acc col buf := by
  unfold State.raise State.withHidden
  dsimp only
  split <;> rfl

@[simp] theorem reject_withHidden (c : ErrCode) :
    (s.withHidden acc col buf).reject c = (s.reject c).withHidden acc col buf := by
  unfold State.reject
  rw [raise_withHidden]
  rfl

@[simp] theorem latch_withHidden (op : BitVec 4) (len : BitVec 7) :
    (s.withHidden acc col buf).latch op len = (s.latch op len).withHidden acc col buf := rfl

theorem writeCmd_withHidden (v : Word) :
    writeCmd v (s.withHidden acc col buf) = (writeCmd v s).withHidden acc col buf := by
  unfold writeCmd
  cases hb : s.busy with
  | true => simp [hb]
  | false =>
    cases hd : decode v with
    | error e => simp [hb]
    | ok i => cases ha : admission i s.lstate <;> simp [hb, ha]

theorem writeHook_withHidden (set : State) :
    writeHook (set.withHidden acc col buf) (s.withHidden acc col buf) =
      (writeHook set s).withHidden acc col buf := by
  unfold writeHook
  cases hb : s.busy with
  | true => simp [hb]
  | false => by_cases hl : s.lstate = .accumulating <;> simp [hb, hl]

theorem writeStaging_withHidden (set : State) :
    writeStaging (set.withHidden acc col buf) (s.withHidden acc col buf) =
      (writeStaging set s).withHidden acc col buf := by
  unfold writeStaging
  cases hb : s.busy <;> simp [hb]

theorem writeReg_withHidden (r : Reg) (v : Word) :
    writeReg r v (s.withHidden acc col buf) = (writeReg r v s).withHidden acc col buf := by
  cases r with
  | cmd => exact writeCmd_withHidden acc col buf v
  | status => rfl
  | ctrl => rfl
  | bitcntLo => exact writeHook_withHidden acc col buf { s with bitcntLo := v }
  | bitcntHi => exact writeHook_withHidden acc col buf { s with bitcntHi := v }
  | saltIn k => exact writeStaging_withHidden acc col buf { s with saltIn := s.saltIn.set k v }
  | dataIn k => exact writeStaging_withHidden acc col buf { s with dataIn := s.dataIn.set k v }
  | ncomp => exact raise_withHidden acc col buf .access
  | id => exact raise_withHidden acc col buf .access
  | unmapped => exact raise_withHidden acc col buf .access
  | digest k => exact raise_withHidden acc col buf .access

/-- A bus write does not look at the hidden values (R200). -/
theorem busWrite_withHidden (width off : Nat) (v : Word) :
    busWrite width off v (s.withHidden acc col buf) = (busWrite width off v s).withHidden acc col buf := by
  unfold busWrite
  split
  · rfl
  · split
    · exact raise_withHidden acc col buf .access
    · exact writeReg_withHidden acc col buf _ v

theorem readStatus_withHidden :
    readStatus (s.withHidden acc col buf) = ((readStatus s).1, (readStatus s).2.withHidden acc col buf) := by
  unfold readStatus
  cases hb : s.busy <;> simp only [withHidden_busy, hb] <;> rfl

theorem readUnlessBusy_withHidden (v : Word) :
    readUnlessBusy v (s.withHidden acc col buf) =
      ((readUnlessBusy v s).1, (readUnlessBusy v s).2.withHidden acc col buf) := by
  unfold readUnlessBusy
  cases hb : s.busy <;> simp only [withHidden_busy, hb] <;> rfl

/-- A bus read finds the same value whatever the hidden values are, and changes the state without looking at
them (R69, R200). -/
theorem busRead_withHidden (p : Params) (width off : Nat) :
    busRead p width off (s.withHidden acc col buf) =
      ((busRead p width off s).1, (busRead p width off s).2.withHidden acc col buf) := by
  unfold busRead
  split
  · rfl
  · split
    · exact congrArg (Prod.mk 0) (raise_withHidden acc col buf .access)
    · rename_i r _
      cases r with
      | status => exact readStatus_withHidden acc col buf
      | ncomp => exact readUnlessBusy_withHidden acc col buf s.ncomp
      | bitcntLo => exact readUnlessBusy_withHidden acc col buf s.bitcntLo
      | bitcntHi => exact readUnlessBusy_withHidden acc col buf s.bitcntHi
      | unmapped => exact congrArg (Prod.mk 0) (raise_withHidden acc col buf .access)
      | _ => rfl

end

/-- No bus write changes PLEN (R188). -/
theorem busWrite_plen (width off : Nat) (v : Word) (s : State) : (busWrite width off v s).plen = s.plen := by
  rcases busWrite_cases width off v s with e | ⟨c, -, e⟩ | ⟨c, -, -, -, e⟩ | ⟨-, -, e⟩ | ⟨-, e⟩ |
      ⟨-, -, -, e⟩ | ⟨-, -, -, e⟩ | ⟨-, k, -, e⟩ | ⟨-, k, -, e⟩ | ⟨-, -, i, -, -, e⟩ <;> simp [e]

/-- No bus read changes PLEN (R69). -/
theorem busRead_plen (p : Params) (width off : Nat) (s : State) : (busRead p width off s).2.plen = s.plen := by
  rcases busRead_cases p width off s with e | e | e <;> simp [e]

namespace SameUpToStale

theorem busWrite (h : SameUpToStale s t) (width off : Nat) (v : Word) :
    SameUpToStale (busWrite width off v s) (Machine.busWrite width off v t) :=
  Blind.sameUpToStale (fun _ acc col buf => busWrite_withHidden acc col buf width off v)
    (busWrite_plen width off v s) h

theorem busRead_value (h : SameUpToStale s t) (p : Params) (width off : Nat) :
    (busRead p width off t).1 = (busRead p width off s).1 :=
  h.view_eq (fun s => (busRead p width off s).1) fun _ acc col buf => by rw [busRead_withHidden]

theorem busRead_state (h : SameUpToStale s t) (p : Params) (width off : Nat) :
    SameUpToStale (busRead p width off s).2 (busRead p width off t).2 :=
  Blind.sameUpToStale (f := fun s => (busRead p width off s).2)
    (fun _ acc col buf => congrArg Prod.snd (busRead_withHidden acc col buf p width off))
    (busRead_plen p width off s) h

theorem with_prog (h : SameUpToStale s t) (prog : List HostLine) :
    SameUpToStale { s with prog := prog } { t with prog := prog } :=
  Blind.sameUpToStale (f := fun s => { s with prog := prog }) (fun _ _ _ _ => rfl) rfl h

theorem with_prog_reads (h : SameUpToStale s t) (prog : List HostLine) (reads : List (String × Word)) :
    SameUpToStale { s with prog := prog, reads := reads } { t with prog := prog, reads := reads } :=
  Blind.sameUpToStale (f := fun s => { s with prog := prog, reads := reads }) (fun _ _ _ _ => rfl) rfl h

theorem with_prog_arrays (h : SameUpToStale s t) (prog : List HostLine) (arrays : List (String × Block)) :
    SameUpToStale { s with prog := prog, arrays := arrays } { t with prog := prog, arrays := arrays } :=
  Blind.sameUpToStale (f := fun s => { s with prog := prog, arrays := arrays }) (fun _ _ _ _ => rfl) rfl h

theorem popTurn (h : SameUpToStale s t) : SameUpToStale s.popTurn t.popTurn :=
  Blind.sameUpToStale (f := State.popTurn) (fun _ _ _ _ => rfl) rfl h

theorem finish (h : SameUpToStale s t) : SameUpToStale s.finish t.finish :=
  Blind.sameUpToStale (f := State.finish) (fun _ _ _ _ => rfl) rfl h

theorem turnAway (h : SameUpToStale s t) (c : ErrCode) : SameUpToStale (s.turnAway c) (t.turnAway c) :=
  Blind.sameUpToStale (f := fun s => s.turnAway c)
    (fun _ acc col buf => congrArg (fun t : State => { t with busy := false }) (reject_withHidden acc col buf c))
    (s.turnAway_plen c) h

theorem resetTurn (h : SameUpToStale s t) : SameUpToStale (resetTurn s) (Machine.resetTurn t) := by
  obtain ⟨acc, col, buf, rfl, -⟩ := sameUpToStale_iff.mp h
  exact ⟨rfl, fun _ _ _ => rfl⟩

end SameUpToStale

/-! ## The host's turn -/

/-- The host performs the same line on agreeing states, and finds the same in its reads (R44). -/
theorem sameOutcome_performLine (h : SameUpToStale s t) (p : Params) (line : HostLine) (rest : List HostLine) :
    SameOutcome (performLine p line rest s) (performLine p line rest t) := by
  have hr : t.reads = s.reads := h.view_eq State.reads fun _ _ _ _ => rfl
  have hn : ∀ name, lookupName name t.reads = lookupName name s.reads := fun name => by rw [hr]
  cases line with
  | wr width off v => exact (h.busWrite width off v).with_prog rest
  | rd width off name =>
    simp only [performLine, h.busRead_value p width off, hr]
    exact (h.busRead_state p width off).with_prog_reads rest _
  | wait =>
    simp only [performLine, h.busRead_value p 64 Reg.status.offset, hr]
    exact (h.busRead_state p 64 Reg.status.offset).with_prog_reads _ _
  | expect name v =>
    simp only [performLine, hn]
    cases lookupName name s.reads with
    | none => rfl
    | some found =>
      by_cases hv : found = v
      · simp only [if_pos hv]
        exact h.with_prog rest
      · simp only [if_neg hv]
        rfl
  | lay out k name =>
    have ha : t.arrays = s.arrays := h.view_eq State.arrays fun _ _ _ _ => rfl
    simp only [performLine, hn, arrayOf, ha]
    cases lookupName name s.reads with
    | none => rfl
    | some w => exact h.with_prog_arrays rest _

theorem sameOutcome_hostTurn (h : SameUpToStale s t) (p : Params) :
    SameOutcome (hostTurn p s) (hostTurn p t) := by
  have hp : t.prog = s.prog := h.view_eq State.prog fun _ _ _ _ => rfl
  unfold hostTurn
  rw [hp]
  cases s.prog with
  | nil => exact h
  | cons line rest => exact sameOutcome_performLine h p line rest

/-! ## The engine's turn -/

/-- Agreeing states have the same pending bytes. -/
theorem SameUpToStale.pendingBytes_eq (h : SameUpToStale s t) : t.pendingBytes = s.pendingBytes := by
  have hl : t.plen = s.plen := h.view_eq State.plen fun _ _ _ _ => rfl
  apply List.ext_getElem
  · rw [length_pendingBytes, length_pendingBytes, hl]
  · intro j ht hs
    rw [length_pendingBytes] at hs
    have hj := h.pending j (by have := s.plen.isLt; omega) hs
    simpa [State.pendingBytes] using hj.symm

/-- The counter after ABSORB: CountAdd of the data's length, which is nothing for no data (R145, R146). -/
theorem absorb_bitcnt (p : Params) (d : List Byte) (s : State) :
    (s.absorb p d).bitcntLo = (s.countAdd d.length).bitcntLo ∧
      (s.absorb p d).bitcntHi = (s.countAdd d.length).bitcntHi := by
  by_cases hd : d = []
  · subst hd
    simp
  by_cases hn : s.plen.toNat + d.length < 64
  · rw [State.absorb_append s p d hd hn]
    exact ⟨rfl, rfl⟩
  · rw [State.absorb_fill s p d (by omega)]
    simp

/-- ABSORB sees of BUF the pending bytes alone, and leaves stale what it did not write (R44, R146). -/
theorem SameUpToStale.absorb (h : SameUpToStale s t) (p : Params) (d : List Byte) :
    SameUpToStale (s.absorb p d) (t.absorb p d) := by
  have hu := h.pendingBytes_eq
  obtain ⟨acc, col, buf, rfl, -⟩ := sameUpToStale_iff.mp h
  obtain ⟨hc, hp, hn, hb⟩ := State.absorb_spec p d s
  obtain ⟨hc', hp', hn', hb'⟩ := State.absorb_spec p d (s.withHidden acc col buf)
  obtain ⟨hlo, hhi⟩ := absorb_bitcnt p d s
  obtain ⟨hlo', hhi'⟩ := absorb_bitcnt p d (s.withHidden acc col buf)
  rw [hu] at hc' hb'
  have hpl : (s.absorb p d).plen = ((s.withHidden acc col buf).absorb p d).plen :=
    BitVec.eq_of_toNat_eq (hp.trans hp'.symm)
  refine ⟨?_, fun j hj hlt => ?_⟩
  · ext1
    case chain => exact hc.trans hc'.symm
    case plen => exact hpl
    case ncomp => exact hn.trans hn'.symm
    case bitcntLo => exact hlo.trans hlo'.symm
    case bitcntHi => exact hhi.trans hhi'.symm
    all_goals simp [State.withHidden]
  · rw [hp] at hlt
    exact (hb j hj hlt).trans (hb' j hj hlt).symm

/-- FINAL sees of BUF the pending bytes alone, and leaves nothing pending (R44, R153, R154). -/
theorem SameUpToStale.finalHash (h : SameUpToStale s t) (p : Params) :
    SameUpToStale (s.finalHash p) (t.finalHash p) := by
  have hu := h.pendingBytes_eq
  obtain ⟨acc, col, buf, rfl, -⟩ := sameUpToStale_iff.mp h
  obtain ⟨hc, hn⟩ := State.finalHash_spec p s
  obtain ⟨hc', hn'⟩ := State.finalHash_spec p (s.withHidden acc col buf)
  rw [hu] at hc'
  refine ⟨?_, fun j hj hlt => absurd hlt (Nat.not_lt_zero j)⟩
  ext1
  case chain => exact hc.trans hc'.symm
  case ncomp => exact hn.trans hn'.symm
  all_goals simp [State.withHidden]

/-- INIT's writes leave nothing pending (R143). -/
theorem SameUpToStale.initHash (h : SameUpToStale s t) : SameUpToStale s.initHash t.initHash := by
  obtain ⟨acc, col, buf, rfl, -⟩ := sameUpToStale_iff.mp h
  exact ⟨rfl, fun _ _ _ => rfl⟩

/-- INIT_SALTED's writes: those of INIT, the salt from SALT_IN, and one ABSORB (R144). -/
theorem SameUpToStale.initSaltedHash (h : SameUpToStale s t) (p : Params) :
    SameUpToStale (s.initSaltedHash p) (t.initSaltedHash p) := by
  obtain ⟨acc, col, buf, rfl, -⟩ := sameUpToStale_iff.mp h
  have h1 : SameUpToStale { s.initHash with salt := saltBytes s, salted := true }
      { (s.withHidden acc col buf).initHash with salt := saltBytes s, salted := true } := ⟨rfl, fun _ _ _ => rfl⟩
  exact h1.absorb p (List.replicate 64 0)

/-- A completion does the same to agreeing states (R44, R141). -/
theorem sameOutcome_exec (h : SameUpToStale s t) (i : Instr) : SameOutcome (exec i s) (exec i t) := by
  have hl : t.lstate = s.lstate := h.view_eq State.lstate fun _ _ _ _ => rfl
  have hd : t.dataIn = s.dataIn := h.view_eq State.dataIn fun _ _ _ _ => rfl
  cases i with
  | nop => exact h.finish
  | init => exact h.initHash.finish
  | initSalted => exact (h.initSaltedHash Config.params).finish
  | update len =>
    simp only [exec, execUpdate, hl, dataBytes, hd]
    cases admission (.update len) s.lstate with
    | some c => exact h.turnAway c
    | none => exact (h.absorb Config.params _).finish
  | final =>
    simp only [exec, execFinal, hl]
    cases admission .final s.lstate with
    | some c => exact h.turnAway c
    | none => exact (h.finalHash Config.params).finish

theorem sameOutcome_engineTurn (h : SameUpToStale s t) : SameOutcome (engineTurn s) (engineTurn t) := by
  have hb : t.busy = s.busy := h.view_eq State.busy fun _ _ _ _ => rfl
  have hop : t.latchOp = s.latchOp := h.view_eq State.latchOp fun _ _ _ _ => rfl
  have hlen : t.latchLen = s.latchLen := h.view_eq State.latchLen fun _ _ _ _ => rfl
  simp only [engineTurn, latchedInstr, hb, hop, hlen]
  cases s.busy with
  | false => exact h
  | true =>
    cases instrOfFields s.latchOp s.latchLen with
    | none => rfl
    | some i => exact sameOutcome_exec h i

/-- Settles O52: the same agent moves, and each agent's move keeps the agreement. -/
theorem staleBytesUnobservable : Obligations.StaleBytesUnobservable := by
  intro s t h
  have hn : nextTurn t = nextTurn s := h.view_eq nextTurn fun _ _ _ _ => rfl
  rw [step_eq, step_eq, hn]
  cases nextTurn s with
  | host => exact sameOutcome_hostTurn h.popTurn Config.params
  | engine => exact sameOutcome_engineTurn h.popTurn
  | reset => exact h.popTurn.resetTurn

end Sys2Proof.Machine
end

section
/-! Proofs of the family 20_memory: what a bus access leaves alone, inside the window and outside it (R61,
R69), while a command is latched (R73, R75), and at the other engines of a platform (R77). -/

namespace Sys2Proof.Machine

variable {s t : State}

/-! ## Bus reads -/

/-- While BUSY = 0 no read of a mapped slot changes anything (R69). -/
theorem readReg_idle (p : Params) {r : Reg} (hr : r ≠ .unmapped) (hb : s.busy = false) :
    (readReg p r s).2 = s := by
  cases r with
  | unmapped => exact absurd rfl hr
  | status => simp [readReg, readStatus, hb]
  | ncomp => simp [readReg, readUnlessBusy, hb]
  | bitcntLo => simp [readReg, readUnlessBusy, hb]
  | bitcntHi => simp [readReg, readUnlessBusy, hb]
  | _ => rfl

/-- A read of a mapped slot changes nothing, or counts one free draw (R69, R73). -/
theorem readReg_cases (p : Params) {r : Reg} (hr : r ≠ .unmapped) (s : State) :
    (readReg p r s).2 = s ∨ (readReg p r s).2 = s.drawn := by
  cases r with
  | unmapped => exact absurd rfl hr
  | status => exact readStatus_cases s
  | ncomp => exact readUnlessBusy_cases s.ncomp s
  | bitcntLo => exact readUnlessBusy_cases s.bitcntLo s
  | bitcntHi => exact readUnlessBusy_cases s.bitcntHi s
  | _ => exact .inl rfl

/-- Settles O26: an admitted offset is a mapped slot's, and no read of one changes the block. -/
theorem readsHaveNoSideEffects : Obligations.ReadsHaveNoSideEffects := by
  refine ⟨fun p s off hlt h8 hne => ?_, fun p s => busRead_cmd p s⟩
  obtain ⟨r, rfl⟩ := Reg.exists_offset hlt h8
  have hr : r ≠ .unmapped := fun h => hne (congrArg Reg.offset h)
  rw [busRead_offset]
  refine ⟨?_, readReg_idle p hr⟩
  rcases readReg_cases p hr s with e | e <;> rw [e]
  rfl

/-- While BUSY = 1 the digest reads 0 (R73, R192). -/
theorem digestWord_busy (hb : s.busy = true) (k : Fin 8) : digestWord s k = 0 := by
  simp [digestWord, hb]

/-- Settles O18: these reads do not look at BUSY, but for DIGEST's, which BUSY hides. -/
theorem busyReadsStayExact : Obligations.BusyReadsStayExact := by
  intro p s hb
  refine ⟨busRead_ctrl p s, busRead_id p s, fun k => ⟨?_, busRead_saltIn p k s, busRead_dataIn p k s⟩⟩
  rw [busRead_digest]
  exact congrArg (·, s) (digestWord_busy hb k)

/-! ## Accesses outside the window -/

theorem busWrite_outside {off : Nat} (h : windowBytes ≤ off) (width : Nat) (v : Word) (s : State) :
    busWrite width off v s = s := if_pos h

theorem busRead_outside {off : Nat} (h : windowBytes ≤ off) (p : Params) (width : Nat) (s : State) :
    busRead p width off s = (Config.freeBusRead s.stream s.draws, s.drawn) := if_pos h

/-- Settles O27: neither access reaches a slot. -/
theorem outsideWindowNotReached : Obligations.OutsideWindowNotReached := fun p s width _ v h =>
  ⟨busWrite_outside h width v s, congrArg Prod.snd (busRead_outside h p width s)⟩

/-! ## The host's turn while a command is latched -/

/-- Of the block, the second state differs from the first at most in DONE, ERR, ERRCODE and the enables; the
model's own fields but `stream` are free (R75). -/
def OperandsKept (s t : State) : Prop :=
  t = { s with
    done := t.done, err := t.err, errcode := t.errcode, doneIe := t.doneIe, errIe := t.errIe,
    draws := t.draws, prog := t.prog, reads := t.reads, arrays := t.arrays, turns := t.turns }

theorem OperandsKept.refl (s : State) : OperandsKept s s := rfl

/-- What the host holds, and the count of free draws, do not matter. -/
theorem OperandsKept.with_host (h : OperandsKept s t) (draws : Nat) (prog : List HostLine)
    (reads : List (String × Word)) (arrays : List (String × Block)) :
    OperandsKept s { t with draws := draws, prog := prog, reads := reads, arrays := arrays } := by
  unfold OperandsKept at h ⊢
  rw [h]

/-- Recording an error is no change of an operand (R214). -/
theorem operandsKept_raise (s : State) (c : ErrCode) : OperandsKept s (s.raise c) := by
  unfold State.raise
  split
  · exact .refl s
  · rfl

/-- A bus write while BUSY = 1 is dropped, or is one of STATUS or CTRL (R75, R216). -/
theorem OperandsKept.busWrite (hb : s.busy = true) (width off : Nat) (v : Word) :
    OperandsKept s (busWrite width off v s) := by
  have busy : s.busy ≠ false := by simp [hb]
  rcases busWrite_cases width off v s with e | ⟨c, -, e⟩ | ⟨-, -, h, -⟩ | ⟨-, -, e⟩ | ⟨-, e⟩ |
      ⟨h, -⟩ | ⟨h, -⟩ | ⟨h, -⟩ | ⟨h, -⟩ | ⟨h, -⟩
  · rw [e]; exact .refl s
  · rw [e]; exact operandsKept_raise s c
  · exact absurd h busy
  · rw [e]; rfl
  · rw [e]; rfl
  all_goals exact absurd h busy

/-- No bus read changes an operand (R69, R217). -/
theorem OperandsKept.busRead (p : Params) (width off : Nat) (s : State) :
    OperandsKept s (busRead p width off s).2 := by
  rcases busRead_cases p width off s with e | e | e <;> rw [e]
  · exact .refl s
  · rfl
  · exact operandsKept_raise s .access

/-- The host's turn while BUSY = 1 changes no operand of the latched command (R75, R247). -/
theorem OperandsKept.hostTurn (hb : s.busy = true) {p : Params} {s' : State}
    (h : hostTurn p s = .next s') : OperandsKept s s' := by
  rcases hostTurn_cases h with rfl | ⟨width, off, v, rest, -, rfl⟩ | ⟨width, off, prog, reads, rfl⟩ |
      ⟨prog, arrays, rfl⟩
  · exact .refl s'
  · exact (OperandsKept.busWrite hb width off v).with_host _ rest _ _
  · exact (OperandsKept.busRead p width off s).with_host _ prog reads _
  · rfl

/-- Settles O50: the host's step while BUSY = 1 is its turn, which keeps the operands. -/
theorem busyFreezesOperands : Obligations.BusyFreezesOperands := by
  intro s s' hb hn hs
  rw [step_eq, hn] at hs
  have h : OperandsKept s.popTurn s' := OperandsKept.hostTurn (popTurn_busy s ▸ hb) hs
  exact h

/-! ## Several engines on one bus -/

section

variable {pl pl' : Platform}

/-- A platform's step is the step of the engine it names, or changes nothing (R77). -/
theorem Platform.step_cases {i : Nat} (h : pl.step i = .next pl') :
    pl' = pl ∨ ∃ s t, pl.engines[i]? = some s ∧ Machine.step s = .next t ∧ pl' = ⟨pl.engines.set i t⟩ := by
  unfold Platform.step at h
  split at h
  · cases h; exact .inl rfl
  · rename_i s hi
    split at h
    · rename_i t ht
      cases h
      exact .inr ⟨s, t, hi, ht, rfl⟩
    all_goals cases h

theorem Platform.write_of_route {i addr : Nat} (h : pl.route addr = some i) (width : Nat) (v : Word) :
    pl.write width addr v = ⟨pl.engines.modify i (busWrite width (addr - Config.engineBase i) v)⟩ := by
  simp only [Platform.write, h]

theorem Platform.write_of_not_routed {addr : Nat} (h : pl.route addr = none) (width : Nat) (v : Word) :
    pl.write width addr v = pl := by
  simp only [Platform.write, h]

/-- A platform's read sets the one engine its address reaches (R61). -/
theorem Platform.read_of_route {i width addr : Nat} {w : Word} (hr : pl.route addr = some i)
    (h : pl.read width addr = some (w, pl')) : ∃ t, pl' = ⟨pl.engines.set i t⟩ := by
  simp only [Platform.read, hr] at h
  split at h
  · cases h
  · cases h; exact ⟨_, rfl⟩

end

/-- Settles O53: a step, a write and a read each set one entry of the list of engines. -/
theorem enginesAreIndependent : Obligations.EnginesAreIndependent := by
  intro pl
  refine ⟨fun i j pl' hj h => ?_, fun width addr j v hj => ?_, fun width addr i j w pl' hr hj h => ?_,
    fun width addr i v s hr hi => ?_⟩
  · rcases Platform.step_cases h with rfl | ⟨s, t, -, -, rfl⟩
    · rfl
    · exact List.getElem?_set_ne hj.symm
  · cases hr : pl.route addr with
    | none => rw [Platform.write_of_not_routed hr]
    | some i =>
      have hij : i ≠ j := fun e => hj (hr.trans (congrArg some e))
      rw [Platform.write_of_route hr]
      simp [hij]
  · obtain ⟨t, rfl⟩ := Platform.read_of_route hr h
    exact List.getElem?_set_ne hj.symm
  · rw [Platform.write_of_route hr]
    simp [hi]

end Sys2Proof.Machine
end

section
/-! Proofs of the family 30_encoding: the decoder is the encoder's inverse (R91 to R94), and what a CMD write of
a given word does (R93, R97, R105). -/

namespace Sys2Proof.Machine

/-- The decoder accepts every command's word (R93). -/
@[simp] theorem decode_encode (i : Instr) : decode (encode i) = .ok i := by
  simp only [decode, opField_encode, lenField_encode, rsv0Field_encode, rsv1Field_encode, instrOfFields_opcode]
  cases i <;> rfl

/-- A word the decoder accepts is the encoding of what it decodes to: no bit of it is dropped (R91, R94). -/
theorem eq_encode_of_decode {w : Word} {i : Instr} (h : decode w = .ok i) : w = encode i := by
  obtain ⟨hi, h0, h1, hlen⟩ := decode_ok h
  obtain ⟨hop, hupd⟩ := instrOfFields_some hi
  have hl : lenField w = lenOf i := by
    rcases hlen with h3 | hz
    · exact hupd h3
    · cases i with
      | update len => exact hupd hop
      | _ => exact hz
  rw [word_eq_fields w, h1, hl, h0, hop]
  rfl

/-- Settles O1: `decode_encode` and `eq_encode_of_decode`. -/
theorem decodeInvertsEncode : Obligations.DecodeInvertsEncode := fun _ i =>
  ⟨eq_encode_of_decode, fun h => h ▸ decode_encode i⟩

/-- Settles O2: each word is the encoding of its command. -/
theorem opcodeWordsDecode : Obligations.OpcodeWordsDecode :=
  ⟨decode_encode .nop, decode_encode .init, decode_encode .initSalted, decode_encode (.update 3), decode_encode .final⟩

section

variable {s : State} {v : Word}

/-- A CMD write of an illegal word while BUSY = 0 (R212, R218). -/
theorem writeCmd_of_decode_error {e : DecodeError} (hb : s.busy = false) (hd : decode v = .error e) :
    writeCmd v s = s.reject .illegalCmd := by
  simp [writeCmd, hb, hd]

/-- A CMD write of a command that is not admitted, while BUSY = 0 (R218). -/
theorem writeCmd_of_not_admitted {i : Instr} {c : ErrCode} (hb : s.busy = false) (hd : decode v = .ok i)
    (ha : admission i s.lstate = some c) : writeCmd v s = s.reject c := by
  simp [writeCmd, hb, hd, ha]

/-- A CMD write of an admitted command while BUSY = 0: acceptance (R140). -/
theorem writeCmd_of_admitted {i : Instr} (hb : s.busy = false) (hd : decode v = .ok i)
    (ha : admission i s.lstate = none) : writeCmd v s = s.latch (opField v) (lenField v) := by
  simp [writeCmd, hb, hd, ha]

end

/-- UPDATE's LEN is checked before the lifecycle state (R218). -/
theorem admission_update_of_illegal {len : BitVec 7} (h : Instr.lenLegal len = false) (l : LState) :
    admission (.update len) l = some .badLen := by
  simp [admission, h]

/-- Settles O3: the words' fields, and the rejection each of the four words meets. -/
theorem workedEncodings : Obligations.WorkedEncodings := by
  refine ⟨rfl, rfl, rfl, decode_encode (.update 65), rfl, rfl, rfl, fun s hb => ?_⟩
  simp only [busWrite_cmd, writeReg]
  exact ⟨writeCmd_of_not_admitted hb (decode_encode (.update 65)) (admission_update_of_illegal (by decide) _),
    writeCmd_of_decode_error (e := .strayLen) hb (by decide),
    writeCmd_of_decode_error (e := .reservedOpcode) hb (by decide),
    writeCmd_of_decode_error (e := .rsv1Set) hb (by decide)⟩

/-- UPDATE's word as the assembler writes it: the opcode and the length shifted to bit 8 (R97). -/
theorem encode_update (len : BitVec 7) : encode (.update len) = 0x3#64 ||| len.setWidth 64 <<< 8 := by
  have h3 : 0x3#64 = (0x3#4).setWidth 64 := rfl
  ext i hi
  simp only [← BitVec.getLsbD_eq_getElem, h3, encode, lenOf, opcode, BitVec.getLsbD_append, BitVec.getLsbD_or,
    BitVec.getLsbD_shiftLeft, BitVec.getLsbD_setWidth, hi, decide_true, Bool.true_and]
  by_cases hop : i < 4
  · simp [hop, show i < 8 by omega]
  rw [if_neg hop, BitVec.getLsbD_of_ge (0x3#4) i (by omega)]
  by_cases hrsv : i < 8
  · simp [hrsv, show i - 4 < 4 by omega]
  have e : i - 4 - 4 = i - 8 := by omega
  by_cases hlen : i < 15
  · simp [e, hrsv, show ¬ i - 4 < 4 by omega, show i - 8 < 7 by omega, show i - 8 < 64 by omega]
  · simp [e, show ¬ i - 4 < 4 by omega, show ¬ i - 8 < 7 by omega, BitVec.getLsbD_of_ge len (i - 8) (by omega)]

/-- Settles O4: `cmd UPDATE, n` holds `n` in seven bits up to 127. -/
theorem assembledCommands : Obligations.AssembledCommands := by
  refine ⟨fun n hn => ?_, fun n hn => if_neg (by omega), rfl, rfl, rfl, rfl⟩
  have hlen : (BitVec.ofNat 7 n).setWidth 64 = BitVec.ofNat 64 n := by
    apply BitVec.eq_of_toNat_eq
    simp only [BitVec.toNat_setWidth, BitVec.toNat_ofNat]
    omega
  rw [assembleUpdate, if_pos hn, cmdLine, encode_update, hlen]
  rfl

end Sys2Proof.Machine
end

section
/-! Proofs of the family 30_encoding: the absorption path's invariant (R148), which ABSORB keeps for any split of
the data, and the digest FINAL leaves (R153). The host programs of R103 and R104 rest on these. -/

namespace Sys2Proof.Machine

section

variable {p : Params} {t : List Byte} {s : State}

/-- The bytes after the last whole block (R148). -/
def restOf (t : List Byte) : List Byte := t.drop (64 * (t.length / 64))

theorem length_restOf (t : List Byte) : (restOf t).length = t.length % 64 := by
  rw [restOf, List.length_drop]
  omega

/-- A chain over a sequence with more behind it: the whole blocks first, then the rest and what follows. -/
theorem chainOf_append_rest (p : Params) (salted : Bool) (salt : Block) (c : Words8) (t d : List Byte) :
    chainOf p salted salt c (t ++ d) = chainOf p salted salt (chainOf p salted salt c t) (restOf t ++ d) := by
  have hw : (t.take (64 * (t.length / 64))).length = 64 * (t.length / 64) := by
    rw [List.length_take]
    omega
  have hsplit : t.take (64 * (t.length / 64)) ++ restOf t = t := List.take_append_drop _ t
  have hwhole : chainOf p salted salt c t = chainOf p salted salt c (t.take (64 * (t.length / 64))) := by
    conv => lhs; rw [← hsplit]
    rw [chainOf_append _ _ _ _ _ _ _ hw, chainOf_short]
    rw [length_restOf]
    exact Nat.mod_lt _ (by decide)
  rw [hwhole, ← chainOf_append _ _ _ _ _ _ _ hw, ← List.append_assoc, hsplit]

/-- What is pending is the bytes after the last whole block (R148). -/
theorem Absorbed.pendingBytes (h : Absorbed p t s) : s.pendingBytes = restOf t := by
  have hl := h.plen
  apply List.ext_getElem
  · rw [length_pendingBytes, length_restOf, hl]
  · intro j hj _
    rw [length_pendingBytes, hl] at hj
    have hb := getD_pendingBytes s j (by omega)
    rw [h.pending j (by omega) hj, ← getD_drop] at hb
    have ht : 64 * (t.length / 64) + j < t.length := by omega
    simpa [List.getD_eq_getElem?_getD, restOf, length_pendingBytes, hl, hj, ht] using hb

/-- CountAdd as one addition to the 128-bit counter (R145). -/
theorem bitcnt_countAdd (s : State) (n : Nat) :
    (s.countAdd n).bitcnt = s.bitcnt + BitVec.ofNat 128 (8 * n % 2 ^ 64) := by
  have hlo := s.bitcntLo.isLt
  have hhi := s.bitcntHi.isLt
  apply BitVec.eq_of_toNat_eq
  rw [BitVec.toNat_add, BitVec.toNat_ofNat, toNat_bitcnt, toNat_bitcnt, State.countAdd_bitcntLo,
    State.countAdd_bitcntHi]
  generalize 8 * n = k
  have h1 : BitVec.toNat (1 : Word) = 1 := rfl
  have carry : s.bitcntLo + BitVec.ofNat 64 k < BitVec.ofNat 64 k ↔ 2 ^ 64 ≤ s.bitcntLo.toNat + k % 2 ^ 64 := by
    rw [BitVec.lt_def, BitVec.toNat_add, BitVec.toNat_ofNat]
    omega
  by_cases h : 2 ^ 64 ≤ s.bitcntLo.toNat + k % 2 ^ 64
  · rw [if_pos (carry.mpr h), BitVec.toNat_add, BitVec.toNat_add, BitVec.toNat_ofNat, h1]
    omega
  · rw [if_neg (mt carry.mp h), BitVec.toNat_add, BitVec.toNat_ofNat]
    omega

/-- The counter after ABSORB (R145, R146). -/
theorem bitcnt_absorb (p : Params) (d : List Byte) (s : State) (hd : 8 * d.length < 2 ^ 64) :
    (s.absorb p d).bitcnt = s.bitcnt + BitVec.ofNat 128 (8 * d.length) := by
  obtain ⟨hlo, hhi⟩ := absorb_bitcnt p d s
  have h : (s.absorb p d).bitcnt = (s.countAdd d.length).bitcnt := by
    rw [State.bitcnt, State.bitcnt, hlo, hhi]
  rw [h, bitcnt_countAdd, Nat.mod_eq_of_lt hd]

/-- ABSORB appends its data to what has been absorbed, however it is split (R148). -/
theorem Absorbed.absorb (h : Absorbed p t s) (d : List Byte) (hd : 8 * d.length < 2 ^ 64) :
    Absorbed p (t ++ d) (s.absorb p d) := by
  have hl := h.plen
  obtain ⟨hc, hp, hn, hb⟩ := State.absorb_spec p d s
  rw [h.pendingBytes] at hc hb
  have hmod : (s.plen.toNat + d.length) % 64 = (t ++ d).length % 64 := by
    rw [List.length_append]
    omega
  have hdiv : t.length / 64 + (s.plen.toNat + d.length) / 64 = (t ++ d).length / 64 := by
    rw [List.length_append]
    omega
  constructor
  case chain =>
    rw [hc, State.absorb_salted, State.absorb_salt, chainOf_append_rest p s.salted s.salt zeroWords t, ← h.chain]
  case plen => exact hp.trans hmod
  case pending =>
    intro j hj hlt
    have hrest : restOf t ++ d = (t ++ d).drop (64 * (t.length / 64)) := by
      rw [List.drop_append_of_le_length (by omega), restOf]
    rw [hb j hj (by omega), hrest, getD_drop, ← hdiv]
    congr 1
    omega
  case count =>
    rw [bitcnt_absorb p d s hd, h.count, ← BitVec.ofNat_add, List.length_append, Nat.mul_add]
  case ncomp => rw [hn, h.ncomp, ← BitVec.ofNat_add, hdiv]

/-- Nothing is absorbed while the hash state is as INIT leaves it, whatever the salt (R143). -/
theorem absorbed_nil (hc : s.chain = zeroWords) (hp : s.plen = 0) (hlo : s.bitcntLo = 0) (hhi : s.bitcntHi = 0)
    (hn : s.ncomp = 0) : Absorbed p [] s where
  chain := hc
  plen := by rw [hp]; rfl
  pending := fun j _ hj => absurd hj (Nat.not_lt_zero j)
  count := by rw [State.bitcnt, hlo, hhi]; rfl
  ncomp := hn

theorem absorbed_initHash (p : Params) (s : State) : Absorbed p [] s.initHash := absorbed_nil rfl rfl rfl rfl rfl

/-- INIT_SALTED absorbs one block of zeros (R144). -/
theorem absorbed_initSaltedHash (p : Params) (s : State) :
    Absorbed p (List.replicate 64 0) (s.initSaltedHash p) :=
  (absorbed_nil (s := { s.initHash with salt := saltBytes s, salted := true }) rfl rfl rfl rfl rfl).absorb
    (List.replicate 64 0) (by decide)

/-- The counter's low word encodes the length absorbed (R153). -/
theorem Absorbed.bitcntLo (h : Absorbed p t s) : s.bitcntLo = BitVec.ofNat 64 (8 * t.length) := by
  have hc := congrArg BitVec.toNat h.count
  have hlo := s.bitcntLo.isLt
  rw [toNat_bitcnt, BitVec.toNat_ofNat] at hc
  apply BitVec.eq_of_toNat_eq
  rw [BitVec.toNat_ofNat]
  omega

/-- The counter's high word encodes the length absorbed (R153). -/
theorem Absorbed.bitcntHi (h : Absorbed p t s) : s.bitcntHi = BitVec.ofNat 64 (8 * t.length / 2 ^ 64) := by
  have hc := congrArg BitVec.toNat h.count
  have hlo := s.bitcntLo.isLt
  rw [toNat_bitcnt, BitVec.toNat_ofNat] at hc
  apply BitVec.eq_of_toNat_eq
  rw [BitVec.toNat_ofNat]
  omega

/-- The padding of a message of `total` bytes, the zero block of R149 included (R153). -/
def paddingOf (total : Nat) : List Byte :=
  paddingBytes (total % 64) (BitVec.ofNat 64 (8 * total)) (BitVec.ofNat 64 (8 * total / 2 ^ 64))

/-- The digest of what has been absorbed: the chain of its whole blocks, then the rest and the padding, salted
when SALTED = 1 and SALT_FINAL_BLOCKS is on (R153, R154). -/
def digestOf (p : Params) (salted : Bool) (salt : Block) (t : List Byte) : Words8 :=
  chainOf p (p.saltFinalBlocks && salted) salt (chainOf p salted salt zeroWords t) (restOf t ++ paddingOf t.length)

theorem Absorbed.finalHash_chain (h : Absorbed p t s) :
    (s.finalHash p).chain = digestOf p s.salted s.salt t := by
  rw [(State.finalHash_spec p s).1, h.pendingBytes, h.plen, h.bitcntLo, h.bitcntHi, digestOf, ← h.chain]
  rfl

/-- Without salting the digest is one chain over the message and its padding (R156). -/
theorem digestOf_unsalted (p : Params) (salt : Block) (t : List Byte) :
    digestOf p false salt t = chainOf p false salt zeroWords (t ++ paddingOf t.length) := by
  rw [digestOf, Bool.and_false, chainOf_append_rest p false salt zeroWords t]

/-- With salting the zero block counts in the length, and the rest is the message's (R149, R157). -/
theorem digestOf_salted (p : Params) (salt : Block) (m : List Byte) :
    digestOf p true salt (List.replicate 64 0 ++ m) =
      chainOf p p.saltFinalBlocks salt (chainOf p true salt zeroWords (List.replicate 64 0 ++ m))
        (restOf m ++ paddingBytes (m.length % 64) (BitVec.ofNat 64 (8 * (64 + m.length)))
          (BitVec.ofNat 64 (8 * (64 + m.length) / 2 ^ 64))) := by
  have hl : (List.replicate 64 (0 : Byte) ++ m).length = 64 + m.length := by
    rw [List.length_append, List.length_replicate]
  have hrest : restOf (List.replicate 64 0 ++ m) = restOf m := by
    rw [restOf, hl, show 64 * ((64 + m.length) / 64) = 64 + 64 * (m.length / 64) by omega,
      List.drop_append, List.drop_eq_nil_of_le (by rw [List.length_replicate]; omega), List.length_replicate,
      Nat.add_sub_cancel_left]
    rfl
  rw [digestOf, Bool.and_true, hrest, hl, paddingOf, Nat.add_mod_left]

end

end Sys2Proof.Machine
end

section
/-! Proofs of the family 30_encoding: what the lines of a host program do (R96), the pseudo-operations `wait`,
`load_data`, `load_salt` and `update_bytes` (R98 to R102), and the host programs `hash` and `hash_salted` (R103,
R104), run with no turn listed (log 1). -/

namespace Sys2Proof.Machine

variable {s t : State} {rest : List HostLine}

/-- Settles O55: each clause is `performLine` on its kind of line; `wr` is the bus write as it stands. -/
theorem hostLines : Obligations.HostLines := by
  intro p s rest width off name v
  refine ⟨fun hp => ?_, fun hp => ?_, fun hp hv => ?_, fun hp => ?_, fun out k hp hv => ?_,
    fun found hp hv hne => ?_⟩ <;> simp only [hostTurn, hp, performLine]
  · exact ⟨_, rfl, rfl, lookupName_self .., fun other ho => lookupName_other ho .., rfl⟩
  · simp [hv]
  · exact ⟨_, rfl, lookupName_self .., fun other ho => lookupName_other ho .., rfl, rfl⟩
  · simp only [hv]
    refine ⟨_, rfl, ⟨_, lookupName_self .., fun j => ?_⟩, fun other ho => lookupName_other ho .., rfl⟩
    exact getElem_layWord (arrayOf out s) k v j.val j.isLt
  · simp [hv, hne]

/-! ## Runs -/

/-- The engine is idle and no turn is listed, so that the host moves (log 1). -/
structure Idle (s : State) : Prop where
  /-- No command is latched. -/
  busy : s.busy = false
  /-- Nobody's turn is listed. -/
  turns : s.turns = []

/-- Some number of steps leads from the first state to the second. -/
def Reaches (s t : State) : Prop := ∃ k, ∀ n, Host.Core.run core (n + k) s = Host.Core.run core n t

theorem Reaches.trans {u : State} (h : Reaches s t) (h' : Reaches t u) : Reaches s u := by
  obtain ⟨k, hk⟩ := h
  obtain ⟨k', hk'⟩ := h'
  exact ⟨k' + k, fun n => by rw [← Nat.add_assoc, hk, hk']⟩

theorem Reaches.refl (s : State) : Reaches s s := ⟨0, fun _ => rfl⟩

/-! ## A command and its wait -/

/-- A wait on a latched, admitted command: the engine completes it, and the poll ends the wait (R98, R251). -/
theorem run_wait_latched {i : Instr} {u : State} (hb : s.busy = true) (ht : s.turns = [])
    (hi : latchedInstr s = some i) (ha : admission i s.lstate = none) (hp : s.prog = .wait :: rest)
    (hu : exec i s = .next u) (n : Nat) :
    Host.Core.run core (n + 2) s =
      Host.Core.run core n { u with prog := rest, reads := ("s", statusIdle u) :: u.reads } := by
  obtain ⟨hub, -, hup, hut, -⟩ := exec_frame ha hu
  have hstep : step s = .next u := by
    rw [step_of_busy ht hb]
    simpa only [engineTurn, hb, if_true, hi] using hu
  rw [run_succ (n + 1) hstep, run_succ n (step_wait_idle (hut.trans ht) hub (hup.trans hp))]

/-- Settles O54: `run_wait_latched` for the command the invariant says is latched. -/
theorem waitEnds : Obligations.WaitEnds := by
  intro s rest hinv hb ht hp
  obtain ⟨i, hi, ha⟩ := hinv.latched hb
  obtain ⟨u, hu⟩ := exec_next i s
  obtain ⟨hub, hud, -⟩ := exec_frame ha hu
  exact ⟨_, run_wait_latched hb ht hi ha hp hu 0, hub, hud, rfl, lookupName_self ..⟩

/-- After the acceptance of a command by a `cmd` line that a `wait` follows (R98, R140). -/
def State.accepted (s : State) (i : Instr) (rest : List HostLine) : State :=
  { s.latch (opcode i) (lenOf i) with prog := .wait :: rest }

/-- `cmd` of an admitted command and the `wait` after it: acceptance, the completion, and the poll (R97, R98). -/
theorem reaches_command {i : Instr} {u : State} (h : Idle s) (ha : admission i s.lstate = none)
    (hp : s.prog = cmdLine i :: .wait :: rest) (hu : exec i (s.accepted i rest) = .next u) :
    ∃ reads, Reaches s { u with prog := rest, reads := reads } ∧ Idle { u with prog := rest, reads := reads } := by
  have hstep : step s = .next (s.accepted i rest) := by
    rw [step_wr_idle h.turns h.busy hp, busWrite_offset, writeReg,
      writeCmd_of_admitted h.busy (decode_encode i) ha, opField_encode, lenField_encode]
    rfl
  have hwait := run_wait_latched (s := s.accepted i rest) rfl h.turns (instrOfFields_opcode i) ha rfl hu
  obtain ⟨hub, -, -, hut, -⟩ := exec_frame (s := s.accepted i rest) ha hu
  exact ⟨_, ⟨3, fun n => (run_succ (n + 2) hstep).trans (hwait n)⟩, hub, hut.trans h.turns⟩

/-- UPDATE with a legal length is admitted in ACCUMULATING (R152). -/
theorem admission_update_accumulating {n : Nat} {len : BitVec 7} (hn : len.toNat = n) (h : n ≤ 64) :
    admission (.update len) .accumulating = none := by
  simp [admission, Instr.lenLegal, hn, h]

/-! ## Staging: load_data and load_salt -/

/-- load_data's eight lines leave the padded bytes as DATA_IN's words (R99). -/
theorem run_loadData (h : Idle s) (bs : List Byte) (hp : s.prog = loadData bs ++ rest) (n : Nat) :
    Host.Core.run core (n + 8) s =
      Host.Core.run core n { s with dataIn := wordsOfBlock (blockOf bs), prog := rest } := by
  rw [Nat.add_comm, ← foldl_set_words (wordsOfBlock (blockOf bs)) s.dataIn]
  exact run_dataIn_writes (List.finRange 8) (wordsOfBlock (blockOf bs)) s rest n h.busy h.turns hp

/-- load_salt's eight lines leave the salt as SALT_IN's words (R100). -/
theorem run_loadSalt (h : Idle s) (salt : Block) (hp : s.prog = loadSalt salt ++ rest) (n : Nat) :
    Host.Core.run core (n + 8) s = Host.Core.run core n { s with saltIn := wordsOfBlock salt, prog := rest } := by
  rw [Nat.add_comm, ← foldl_set_words (wordsOfBlock salt) s.saltIn]
  exact run_saltIn_writes (List.finRange 8) (wordsOfBlock salt) s rest n h.busy h.turns hp

/-- The bytes a block was made of, when they are at most 64. -/
theorem take_blockOf {bs : List Byte} (h : bs.length ≤ 64) : (blockOf bs).toList.take bs.length = bs := by
  apply List.ext_getElem
  · simpa using h
  · intro j _ hj
    simp [hj]

/-- LEN of a chunk of at most 64 bytes is its length (R91). -/
theorem toNat_len {bs : List Byte} (h : bs.length ≤ 64) : (BitVec.ofNat 7 bs.length).toNat = bs.length := by
  rw [BitVec.toNat_ofNat]
  omega

/-- UPDATE takes the bytes load_data staged (R92, R99). -/
theorem dataBytes_of_loaded {bs : List Byte} (h : bs.length ≤ 64) (hs : s.dataIn = wordsOfBlock (blockOf bs)) :
    dataBytes (BitVec.ofNat 7 bs.length) s = bs := by
  rw [dataBytes, hs, byteImage_wordsOfBlock, toNat_len h, take_blockOf h]

/-- INIT_SALTED takes the salt load_salt staged (R92, R100). -/
theorem saltBytes_of_loaded {salt : Block} (hs : s.saltIn = wordsOfBlock salt) : saltBytes s = salt := by
  rw [saltBytes, hs, byteImage_wordsOfBlock]

/-- Settles O56: `run_loadData` and `dataBytes_of_loaded`. -/
theorem loadDataPlacesBytes : Obligations.LoadDataPlacesBytes := fun _ bs _ hl hb ht hp =>
  ⟨_, run_loadData ⟨hb, ht⟩ bs hp 0, rfl, dataBytes_of_loaded hl rfl⟩

/-- Settles O57: `run_loadSalt` and `saltBytes_of_loaded`. -/
theorem loadSaltPlacesBytes : Obligations.LoadSaltPlacesBytes := fun _ salt _ hb ht hp =>
  ⟨_, run_loadSalt ⟨hb, ht⟩ salt hp 0, rfl, saltBytes_of_loaded rfl⟩

/-! ## Splitting: update_bytes -/

theorem flatten_chunks64 (fuel : Nat) (m : List Byte) (h : m.length ≤ fuel) : (chunks64 fuel m).flatten = m := by
  induction fuel generalizing m with
  | zero => exact (List.length_eq_zero_iff.mp (Nat.le_zero.mp h)).symm
  | succ fuel ih =>
    rw [chunks64]
    split
    · rename_i hm
      exact hm.symm
    · have hd : (m.drop 64).length ≤ fuel := by
        rw [List.length_drop]
        omega
      rw [List.flatten_cons, ih _ hd, List.take_append_drop]

theorem mem_chunks64 {fuel : Nat} {m c : List Byte} (h : c ∈ chunks64 fuel m) : c.length ≤ 64 ∧ c ≠ [] := by
  induction fuel generalizing m with
  | zero => cases h
  | succ fuel ih =>
    rw [chunks64] at h
    split at h
    · cases h
    · rename_i hm
      rcases List.mem_cons.mp h with rfl | h
      · exact ⟨List.length_take_le .., by simpa using hm⟩
      · exact ih h

/-- Settles O58: `flatten_chunks64` and `mem_chunks64`. -/
theorem updateBytesSplits : Obligations.UpdateBytesSplits := fun m =>
  ⟨flatten_chunks64 m.length m le_rfl, fun _ => mem_chunks64, fun h => h ▸ rfl⟩

/-! ## Hashing -/

/-- The engine is accumulating: `m` is what it has absorbed, salted or not, with this salt in SALT (R148). -/
structure Hashing (salted : Bool) (salt : Block) (m : List Byte) (s : State) : Prop where
  /-- UPDATE and FINAL are admitted. -/
  lstate : s.lstate = .accumulating
  /-- SALTED holds this flag. -/
  salted : s.salted = salted
  /-- SALT holds these bytes. -/
  salt : s.salt = salt
  /-- What has been absorbed (R148). -/
  absorbed : Absorbed Config.params m s

section

variable {salted : Bool} {salt : Block} {m : List Byte}

/-- Hashing speaks of the hash state alone: neither of the latch and the flags, nor of the staging registers,
nor of the host. -/
theorem Hashing.with_rest (h : Hashing salted salt m s) (busy done : Bool) (op : BitVec 4) (len : BitVec 7)
    (dataIn : Words8) (prog : List HostLine) (reads : List (String × Word)) :
    Hashing salted salt m { s with busy := busy, done := done, latchOp := op, latchLen := len, dataIn := dataIn,
                                   prog := prog, reads := reads } :=
  ⟨h.lstate, h.salted, h.salt, h.absorbed.chain, h.absorbed.plen, h.absorbed.pending, h.absorbed.count,
    h.absorbed.ncomp⟩

/-- Acceptance changes nothing of the hash (R140). -/
theorem Hashing.accepted (h : Hashing salted salt m s) (i : Instr) (rest : List HostLine) :
    Hashing salted salt m (s.accepted i rest) :=
  h.with_rest true s.done (opcode i) (lenOf i) s.dataIn (.wait :: rest) s.reads

/-- The end of a completion step, and the poll after it, change nothing of the hash (R141). -/
theorem Hashing.completed (h : Hashing salted salt m s) (rest : List HostLine) (reads : List (String × Word)) :
    Hashing salted salt m { s.finish with prog := rest, reads := reads } :=
  h.with_rest false true s.latchOp s.latchLen s.dataIn rest reads

/-- ABSORB continues the hash (R148). -/
theorem Hashing.absorb (h : Hashing salted salt m s) (d : List Byte) (hd : 8 * d.length < 2 ^ 64) :
    Hashing salted salt (m ++ d) (s.absorb Config.params d) :=
  ⟨(State.absorb_lstate ..).trans h.lstate, (State.absorb_salted ..).trans h.salted,
    (State.absorb_salt ..).trans h.salt, h.absorbed.absorb d hd⟩

/-- INIT and its wait start an unsalted hash of nothing (R143). -/
theorem reaches_init (h : Idle s) (hp : s.prog = cmdLine .init :: .wait :: rest) :
    ∃ t, Reaches s t ∧ Idle t ∧ t.prog = rest ∧ Hashing false zeroBlock [] t := by
  obtain ⟨reads, hr, hi⟩ := reaches_command h rfl hp rfl
  have hh : Hashing false zeroBlock [] (s.accepted .init rest).initHash :=
    ⟨rfl, rfl, rfl, absorbed_initHash Config.params (s.accepted .init rest)⟩
  exact ⟨_, hr, hi, rfl, hh.completed rest reads⟩

/-- INIT_SALTED and its wait start a salted hash of the zero block (R144, R149). -/
theorem reaches_initSalted (h : Idle s) (hp : s.prog = cmdLine .initSalted :: .wait :: rest) :
    ∃ t, Reaches s t ∧ Idle t ∧ t.prog = rest ∧ Hashing true (saltBytes s) (List.replicate 64 0) t := by
  obtain ⟨reads, hr, hi⟩ := reaches_command h rfl hp rfl
  have hh : Hashing true (saltBytes s) (List.replicate 64 0)
      ((s.accepted .initSalted rest).initSaltedHash Config.params) :=
    ⟨State.initSaltedHash_lstate .., State.initSaltedHash_salted .., State.initSaltedHash_salt ..,
      absorbed_initSaltedHash Config.params (s.accepted .initSalted rest)⟩
  exact ⟨_, hr, hi, rfl, hh.completed rest reads⟩

/-- UPDATE of staged bytes absorbs them (R152). -/
theorem exec_update_of_loaded {c : List Byte} (hl : s.lstate = .accumulating) (hc : c.length ≤ 64)
    (hd : s.dataIn = wordsOfBlock (blockOf c)) :
    exec (.update (BitVec.ofNat 7 c.length)) s = .next (s.absorb Config.params c).finish := by
  simp only [exec, execUpdate, hl, admission_update_accumulating (toNat_len hc) hc, dataBytes_of_loaded hc hd]

/-- UPDATE of staged bytes and its wait (R102, R152). -/
theorem reaches_update (h : Idle s) (hh : Hashing salted salt m s) {c : List Byte} (hc : c.length ≤ 64)
    (hd : s.dataIn = wordsOfBlock (blockOf c))
    (hp : s.prog = cmdLine (.update (BitVec.ofNat 7 c.length)) :: .wait :: rest) :
    ∃ t, Reaches s t ∧ Idle t ∧ t.prog = rest ∧ Hashing salted salt (m ++ c) t := by
  have ha : admission (.update (BitVec.ofNat 7 c.length)) s.lstate = none := by
    rw [hh.lstate, admission_update_accumulating (toNat_len hc) hc]
  have hha := hh.accepted (.update (BitVec.ofNat 7 c.length)) rest
  obtain ⟨reads, hr, hi⟩ := reaches_command h ha hp (exec_update_of_loaded hha.lstate hc hd)
  exact ⟨_, hr, hi, rfl, (hha.absorb c (by omega)).completed rest reads⟩

/-- load_data changes nothing of the hash (R99). -/
theorem reaches_loadData (h : Idle s) (hh : Hashing salted salt m s) {c : List Byte}
    (hp : s.prog = loadData c ++ rest) :
    ∃ t, Reaches s t ∧ Idle t ∧ t.prog = rest ∧ t.dataIn = wordsOfBlock (blockOf c) ∧ Hashing salted salt m t :=
  ⟨{ s with dataIn := wordsOfBlock (blockOf c), prog := rest }, ⟨8, run_loadData h c hp⟩, ⟨h.busy, h.turns⟩,
    rfl, rfl, hh.with_rest s.busy s.done _ _ _ rest s.reads⟩

/-- One chunk of update_bytes: its bytes are staged and absorbed (R102). -/
theorem reaches_chunk (h : Idle s) (hh : Hashing salted salt m s) {c : List Byte} (hc : c.length ≤ 64)
    (hp : s.prog = loadData c ++ cmdLine (.update (BitVec.ofNat 7 c.length)) :: .wait :: rest) :
    ∃ t, Reaches s t ∧ Idle t ∧ t.prog = rest ∧ Hashing salted salt (m ++ c) t := by
  obtain ⟨t, hr, hi, hpt, hd, hht⟩ := reaches_loadData h hh hp
  obtain ⟨u, hr', hu⟩ := reaches_update hi hht hc hd hpt
  exact ⟨u, hr.trans hr', hu⟩

/-- The chunks of update_bytes are absorbed one after another (R102, R148). -/
theorem reaches_updateChunks (chunks : List (List Byte)) (hc : ∀ c ∈ chunks, c.length ≤ 64) (h : Idle s)
    (hh : Hashing salted salt m s) (hp : s.prog = updateChunks chunks ++ rest) :
    ∃ t, Reaches s t ∧ Idle t ∧ t.prog = rest ∧ Hashing salted salt (m ++ chunks.flatten) t := by
  induction chunks generalizing s m with
  | nil => exact ⟨s, .refl s, h, hp, by simpa using hh⟩
  | cons c cs ih =>
    have hp' : s.prog = loadData c ++ cmdLine (.update (BitVec.ofNat 7 c.length)) :: .wait ::
        (updateChunks cs ++ rest) := by
      rw [hp]
      simp [updateChunks]
    obtain ⟨t, hr, hi, hpt, hht⟩ := reaches_chunk h hh (hc c List.mem_cons_self) hp'
    obtain ⟨u, hr', hi', hpu, hhu⟩ := ih (fun c hcs => hc c (List.mem_cons_of_mem _ hcs)) hi hht hpt
    exact ⟨u, hr.trans hr', hi', hpu, by simpa using hhu⟩

/-- update_bytes absorbs its data (R102). -/
theorem reaches_updateBytes (d : List Byte) (h : Idle s) (hh : Hashing salted salt m s)
    (hp : s.prog = updateBytes d ++ rest) :
    ∃ t, Reaches s t ∧ Idle t ∧ t.prog = rest ∧ Hashing salted salt (m ++ d) t := by
  have hc := reaches_updateChunks (chunks64 d.length d) (fun _ hc => (mem_chunks64 hc).1) h hh hp
  rwa [flatten_chunks64 d.length d le_rfl] at hc

/-- FINAL and its wait leave the digest in CHAIN (R154). -/
theorem reaches_final (h : Idle s) (hh : Hashing salted salt m s) (hp : s.prog = cmdLine .final :: .wait :: rest) :
    ∃ t, Reaches s t ∧ Idle t ∧ t.prog = rest ∧ t.lstate = .finalized ∧
      t.chain = digestOf Config.params salted salt m := by
  have ha : admission .final s.lstate = none := by simp [admission, hh.lstate]
  have hha := hh.accepted .final rest
  have hexec : exec .final (s.accepted .final rest) =
      .next ((s.accepted .final rest).finalHash Config.params).finish := by
    simp [exec, execFinal, admission, hha.lstate]
  obtain ⟨reads, hr, hi⟩ := reaches_command h ha hp hexec
  refine ⟨_, hr, hi, rfl, rfl, ?_⟩
  rw [← hha.salted, ← hha.salt]
  exact hha.absorbed.finalHash_chain

end

/-- From this state the host's program runs to its end and leaves a digest's bytes in an array and its last word
in `w` (R101). -/
def LeavesDigest (out : String) (digest : Words8) (s : State) : Prop :=
  ∃ (n : Nat) (t : State), Host.Core.run core n s = .next t ∧ t.ended ∧
    lookupName out t.arrays = some (digestBytes digest) ∧ lookupName "w" t.reads = some digest[7]

theorem Reaches.leavesDigest {out : String} {digest : Words8} (h : Reaches s t) (ht : LeavesDigest out digest t) :
    LeavesDigest out digest s := by
  obtain ⟨k, hk⟩ := h
  obtain ⟨n, u, hn, hu⟩ := ht
  exact ⟨n + k, u, (hk n).trans hn, hu⟩

/-- read_digest at the end of a program, in FINALIZED (R101). -/
theorem leavesDigest_readDigest (out : String) (h : Idle s) (hl : s.lstate = .finalized)
    (hp : s.prog = readDigest out) : LeavesDigest out s.chain s := by
  obtain ⟨t, hr, ht, hw, hout⟩ := run_readDigest out s [] 0 h.busy h.turns hl (by simpa using hp)
  refine ⟨16, t, hr, ?_, hout, hw⟩
  rw [ht]
  exact ⟨rfl, h.busy⟩

/-- What `hash` and `hash_salted` have in common: update_bytes, FINAL and read_digest (R103, R104). -/
theorem leavesDigest_of_hashing {salted : Bool} {salt : Block} {m d : List Byte} {out : String} (h : Idle s)
    (hh : Hashing salted salt m s)
    (hp : s.prog = updateBytes d ++ cmdLine .final :: .wait :: readDigest out) :
    LeavesDigest out (digestOf Config.params salted salt (m ++ d)) s := by
  obtain ⟨t, hr, hi, hpt, hht⟩ := reaches_updateBytes d h hh hp
  obtain ⟨u, hr', hi', hpu, hlu, hcu⟩ := reaches_final hi hht hpt
  rw [← hcu]
  exact (hr.trans hr').leavesDigest (leavesDigest_readDigest out hi' hlu hpu)

/-- Settles O59: INIT starts the hash, and `leavesDigest_of_hashing` ends it. -/
theorem hashProgramComputesDigest : Obligations.HashProgramComputesDigest := by
  intro m out s hb ht hp
  obtain ⟨t, hr, hi, hpt, hht⟩ := reaches_init (rest := updateBytes m ++ cmdLine .final :: .wait :: readDigest out)
    ⟨hb, ht⟩ (by simp [hp, hashLines])
  have h := hr.leavesDigest (leavesDigest_of_hashing hi hht hpt)
  rw [List.nil_append, digestOf_unsalted] at h
  exact h

/-- load_salt before INIT_SALTED (R100). -/
theorem reaches_loadSalt {salt : Block} (h : Idle s) (hp : s.prog = loadSalt salt ++ rest) :
    ∃ t, Reaches s t ∧ Idle t ∧ t.prog = rest ∧ saltBytes t = salt :=
  ⟨{ s with saltIn := wordsOfBlock salt, prog := rest }, ⟨8, run_loadSalt h salt hp⟩, ⟨h.busy, h.turns⟩,
    rfl, saltBytes_of_loaded rfl⟩

/-- Settles O60: load_salt and INIT_SALTED start the hash, and `leavesDigest_of_hashing` ends it. -/
theorem hashSaltedProgramComputesDigest : Obligations.HashSaltedProgramComputesDigest := by
  intro m salt out s hb ht hp
  have hp' : s.prog = loadSalt salt ++ cmdLine .initSalted :: .wait ::
      (updateBytes m ++ cmdLine .final :: .wait :: readDigest out) := by simp [hp, hashSaltedLines]
  obtain ⟨t, hr, hi, hpt, hst⟩ := reaches_loadSalt ⟨hb, ht⟩ hp'
  obtain ⟨u, hr', hi', hpu, hhu⟩ := reaches_initSalted hi hpt
  rw [hst] at hhu
  have h := (hr.trans hr').leavesDigest (leavesDigest_of_hashing hi' hhu hpu)
  rw [digestOf_salted] at h
  exact h

end Sys2Proof.Machine
end

section
/-! Proofs of the family 40_compression: a row of a compression as a sum over the columns (R127), which word's
bit selects a column (R129), and the corner cases that follow (R130). -/

namespace Sys2Proof.Machine

/-- What column `i` adds to row `r` (R123, R124). -/
def columnTerm (p : Params) (cin : Vector Byte 128) (r : Fin 8) (i : Fin 1024) : Word :=
  if cinBit cin i = 1 then p.matrix r i else 0

/-- Row `r` of a compression is the sum of what the columns add (R127). -/
theorem accumulate_eq_list_sum (p : Params) (cin : Vector Byte 128) (r : Fin 8) :
    (accumulate p cin)[r] = ((List.finRange 1024).map (columnTerm p cin r)).sum :=
  getElem_accumulate p cin r r.isLt

/-- As a number, what a column adds is its bit times its entry (R124, R127). -/
theorem toNat_columnTerm (p : Params) (cin : Vector Byte 128) (r : Fin 8) (i : Fin 1024) :
    (columnTerm p cin r i).toNat = (cinBit cin i).toNat * (p.matrix r i).toNat := by
  unfold columnTerm
  generalize cinBit cin i = b
  have h : b = 0#1 ∨ b = 1#1 := by revert b; decide
  rcases h with rfl | rfl <;> simp

/-- Words add modulo 2^64 (R126). -/
theorem toNat_sum_words (l : List Word) : l.sum.toNat = (l.map BitVec.toNat).sum % 2 ^ 64 := by
  induction l with
  | nil => rfl
  | cons w l ih => rw [List.sum_cons, BitVec.toNat_add, ih, List.map_cons, List.sum_cons, Nat.add_mod_mod]

/-- A row's sum over any columns, as a number (R127). -/
theorem toNat_sum_columnTerm (p : Params) (cin : Vector Byte 128) (r : Fin 8) (l : List (Fin 1024)) :
    (l.map (columnTerm p cin r)).sum.toNat =
      (l.map fun i => (cinBit cin i).toNat * (p.matrix r i).toNat).sum % 2 ^ 64 := by
  rw [toNat_sum_words, List.map_map]
  simp only [Function.comp_def, toNat_columnTerm]

/-- The columns may be visited in any order: the entries a row adds are the same (R127). -/
theorem foldl_columnStep_perm (p : Params) (cin : Vector Byte 128) {l l' : List (Fin 1024)} (h : l.Perm l') :
    l.foldl (columnStep p cin) zeroWords = l'.foldl (columnStep p cin) zeroWords := by
  ext1 r hr
  rw [getElem_foldl_columnStep_zero, getElem_foldl_columnStep_zero]
  exact (h.map _).sum_eq

/-- Settles O30: a row is a sum of words, read as numbers, and a sum does not depend on its order. -/
theorem compressionClosedForm : Obligations.CompressionClosedForm := by
  refine fun p cin => ⟨fun r => ?_, fun l hl => ?_⟩
  · rw [accumulate_eq_list_sum, toNat_sum_columnTerm]
  · unfold accumulate
    exact foldl_columnStep_perm p cin hl

/-- A bit of the compression input is the bit of the byte that holds it (R13). -/
theorem cinBit_eq_getLsbD (cin : Vector Byte 128) (i : Fin 1024) :
    cinBit cin i = BitVec.ofBool ((cin[i.val / 8]'(by omega)).getLsbD (i.val % 8)) := by
  have e1 : i.val >>> 3 = i.val / 8 := Nat.shiftRight_eq_div_pow _ _
  have e2 : i.val &&& 7 = i.val % 8 := Nat.and_two_pow_sub_one_eq_mod _ 3
  ext j hj
  obtain rfl : j = 0 := by omega
  simp [cinBit, e1, e2]

/-- A 64-byte half of the compression input, read bit by bit through its little-endian words (R14, R129). -/
theorem cinBit_of_half (cin : Vector Byte 128) (b : Block) (start : Nat) (hs : start + 64 ≤ 128)
    (hb : ∀ (j : Nat) (h : j < 64), cin[start + j] = b[j]) (i : Fin 1024) (k : Fin 8)
    (hi : i.val = 8 * start + 64 * k.val + i.val % 64) :
    cinBit cin i = BitVec.ofBool ((lew b k).getLsbD (i.val % 64)) := by
  have hk := k.isLt
  have e1 : i.val / 8 = start + (8 * k.val + i.val % 64 / 8) := by omega
  have e2 : i.val % 8 = i.val % 64 % 8 := by omega
  rw [cinBit_eq_getLsbD, getLsbD_lew b k _ (by omega), ← hb _ (by omega)]
  simp only [e1, e2]

/-- Columns 0 to 511 are selected by the chain words (R121, R129). -/
theorem cinBit_compressionInput_chain (chain : Words8) (b : Block) (i : Fin 1024) (h : i.val < 512) :
    cinBit (compressionInput chain b) i =
      BitVec.ofBool ((chain[i.val / 64]'(by omega)).getLsbD (i.val % 64)) := by
  have hb : ∀ (j : Nat) (hj : j < 64), (compressionInput chain b)[0 + j] = (byteImage chain)[j] := by
    simpa only [Nat.zero_add] using getElem_compressionInput_chain chain b
  rw [cinBit_of_half _ _ 0 (by omega) hb i ⟨i.val / 64, by omega⟩ (by dsimp only; omega), lew_byteImage,
    Fin.getElem_fin]

/-- Columns 512 to 1023 are selected by the words of the block (R122, R129). -/
theorem cinBit_compressionInput_block (chain : Words8) (b : Block) (i : Fin 1024) (h : 512 ≤ i.val) :
    cinBit (compressionInput chain b) i =
      BitVec.ofBool ((lew b ⟨(i.val - 512) / 64, by omega⟩).getLsbD (i.val % 64)) :=
  cinBit_of_half _ b 64 (by omega) (getElem_compressionInput_block chain b) i _ (by dsimp only; omega)

/-- Settles O31: one lemma for each half of the compression input. -/
theorem compressionInputBits : Obligations.CompressionInputBits :=
  fun chain b salt apply i => ⟨cinBit_compressionInput_chain chain (mixSalt apply salt b) i,
    cinBit_compressionInput_block chain (mixSalt apply salt b) i⟩

/-- Row `r` of a compression as a sum over the finite type of the columns, for the library's lemmas (R127). -/
theorem accumulate_eq_sum (p : Params) (cin : Vector Byte 128) (r : Fin 8) :
    (accumulate p cin)[r] = ∑ i, columnTerm p cin r i := by
  rw [accumulate_eq_list_sum, Fin.sum_univ_def]

section

variable {p : Params} {cin : Vector Byte 128} {r : Fin 8} {i : Fin 1024}

theorem columnTerm_set (h : cinBit cin i = 1) : columnTerm p cin r i = p.matrix r i := if_pos h

theorem columnTerm_clear (h : cinBit cin i = 0) : columnTerm p cin r i = 0 := by
  simp [columnTerm, h]

/-- R130 (a): without a set bit every row is zero. -/
theorem accumulate_of_clear (h : ∀ i, cinBit cin i = 0) : accumulate p cin = zeroWords := by
  ext1 r hr
  rw [getElem_zeroWords]
  exact (accumulate_eq_sum p cin ⟨r, hr⟩).trans (Finset.sum_eq_zero fun i _ => columnTerm_clear (h i))

/-- R130 (b): one set bit selects its column. -/
theorem accumulate_of_single (h : ∀ j, cinBit cin j = if j = i then 1 else 0) :
    (accumulate p cin)[r] = p.matrix r i := by
  rw [accumulate_eq_sum, Fintype.sum_eq_single i fun j hj => columnTerm_clear ((h j).trans (if_neg hj)),
    columnTerm_set ((h i).trans (if_pos rfl))]

/-- R130 (c): all ones gives the sum of the whole row. -/
theorem accumulate_of_ones (h : ∀ i, cinBit cin i = 1) :
    (accumulate p cin)[r] = ((List.finRange 1024).map (p.matrix r)).sum := by
  rw [accumulate_eq_sum, Fintype.sum_congr _ _ fun i => columnTerm_set (h i)]
  exact Fin.sum_univ_def _

/-- R130 (d), before the wrap: two set bits, and no other entry of the row, add two entries. -/
theorem accumulate_of_pair {j : Fin 1024} (hij : i ≠ j) (hi : cinBit cin i = 1) (hj : cinBit cin j = 1)
    (h : ∀ k, k ≠ i → k ≠ j → cinBit cin k = 1 → p.matrix r k = 0) :
    (accumulate p cin)[r] = p.matrix r i + p.matrix r j := by
  have hrest : ∀ k, k ≠ i ∧ k ≠ j → columnTerm p cin r k = 0 := by
    rintro k ⟨hki, hkj⟩
    by_cases hk : cinBit cin k = 1
    · exact (columnTerm_set hk).trans (h k hki hkj hk)
    · exact if_neg hk
  rw [accumulate_eq_sum, Fintype.sum_eq_add i j hij hrest, columnTerm_set hi, columnTerm_set hj]

end

/-- A zero chain and a zero block make an input without a set bit (R130 (a)). -/
theorem cinBit_compressionInput_zero (i : Fin 1024) : cinBit (compressionInput zeroWords zeroBlock) i = 0 := by
  by_cases h : i.val < 512
  · rw [cinBit_compressionInput_chain _ _ _ h, getElem_zeroWords, BitVec.getLsbD_zero]
    rfl
  · rw [cinBit_compressionInput_block _ _ _ (by omega), getLsbD_lew _ _ _ (by omega), getElem_zeroBlock,
      BitVec.getLsbD_zero]
    rfl

/-- R130 (f): a block equal to the salt is masked to zero. -/
theorem mixSalt_self (salt : Block) : mixSalt true salt salt = zeroBlock := by
  ext1 j hj
  simp

/-- Settles O32: R130's cases, each by its lemma above. -/
theorem compressionCornerCases : Obligations.CompressionCornerCases := by
  refine ⟨fun _ _ => accumulate_of_clear, fun _ _ _ h _ => accumulate_of_single h,
    fun _ _ h _ => accumulate_of_ones h, fun p cin r i j hij hi hj mi mj h => ?_,
    fun _ => accumulate_of_clear cinBit_compressionInput_zero, fun p s b a => State.compress_buf s p b a, mixSalt_self⟩
  rw [accumulate_of_pair hij hi hj h, mi, mj]
  rfl

/-- The salt mixer as the choice between two blocks (R122). -/
theorem mixSalt_eq_ite (apply : Bool) (salt b : Block) :
    mixSalt apply salt b = if apply = true then tabulate 64 fun j => b[j] ^^^ salt[j] else b := by
  cases apply with
  | true => rfl
  | false =>
    ext1 j hj
    simp

/-- Settles O33: the new chain's block is the salt mixer's, and COMPRESS writes no other field. -/
theorem compressionFrame : Obligations.CompressionFrame := by
  intro p s b a
  have h : mixSalt (a && s.salted) s.salt b =
      if a = true ∧ s.salted = true then tabulate 64 fun j => b[j] ^^^ s.salt[j] else b := by
    simp only [mixSalt_eq_ite, Bool.and_eq_true]
  rw [← h]
  rfl

/-- Settles O29: both masks are evaluated. -/
theorem maskIsAllOnesOrZero : Obligations.MaskIsAllOnesOrZero :=
  ⟨by decide, by decide⟩

end Sys2Proof.Machine
end

section
/-! Proofs of the family 41_state_controller: the counter (R145), and what any sequence of ABSORB calls and the FINAL
after it compute (R147, R148, R153, R161). -/

namespace Sys2Proof.Machine

variable {p : Params} {t : List Byte} {s : State}

/-- ABSORB of one chunk after another, in order. -/
def State.absorbAll (p : Params) (chunks : List (List Byte)) (s : State) : State :=
  chunks.foldl (fun s c => s.absorb p c) s

theorem State.absorbAll_cons (p : Params) (c : List Byte) (chunks : List (List Byte)) (s : State) :
    s.absorbAll p (c :: chunks) = (s.absorb p c).absorbAll p chunks := rfl

@[simp] theorem State.absorbAll_salt (p : Params) (chunks : List (List Byte)) (s : State) :
    (s.absorbAll p chunks).salt = s.salt := by
  induction chunks generalizing s with
  | nil => rfl
  | cons c chunks ih => rw [State.absorbAll_cons, ih, State.absorb_salt]

@[simp] theorem State.absorbAll_salted (p : Params) (chunks : List (List Byte)) (s : State) :
    (s.absorbAll p chunks).salted = s.salted := by
  induction chunks generalizing s with
  | nil => rfl
  | cons c chunks ih => rw [State.absorbAll_cons, ih, State.absorb_salted]

/-- Any sequence of ABSORB calls appends the concatenation of its chunks (R148). -/
theorem Absorbed.absorbAll (h : Absorbed p t s) (chunks : List (List Byte))
    (hc : ∀ c ∈ chunks, 8 * c.length < 2 ^ 64) : Absorbed p (t ++ chunks.flatten) (s.absorbAll p chunks) := by
  induction chunks generalizing s t with
  | nil => simpa [State.absorbAll] using h
  | cons c chunks ih =>
    have h1 : Absorbed p (t ++ c) (s.absorb p c) := h.absorb c (hc c List.mem_cons_self)
    have h2 := ih h1 fun d hd => hc d (List.mem_cons_of_mem c hd)
    rwa [List.append_assoc] at h2

/-- Settles O44: the two start states, and `Absorbed.absorbAll`, whose step is ABSORB of one chunk. -/
theorem chunkingInvariance : Obligations.ChunkingInvariance :=
  ⟨absorbed_initHash, absorbed_initSaltedHash, fun _ _ chunks _ hc h => h.absorbAll chunks hc⟩

/-- Settles O42: `bitcnt_countAdd`; the frame is the definition's. -/
theorem counterAddsWithCarry : Obligations.CounterAddsWithCarry := fun s n => ⟨bitcnt_countAdd s n, rfl⟩

/-- Settles O43: the count and the pending length in `State.absorb_spec`. -/
theorem absorbCompressionCount : Obligations.AbsorbCompressionCount := by
  intro p d s
  obtain ⟨-, hplen, hncomp, -⟩ := State.absorb_spec p d s
  refine ⟨fun _ => ⟨hncomp, hplen⟩, fun hd => ?_⟩
  rw [hd, State.absorb_nil]

/-- FINAL counts one compression more than the whole blocks, or two where the length does not fit (R155, R161). -/
theorem Absorbed.finalHash_ncomp (h : Absorbed p t s) :
    (s.finalHash p).ncomp = BitVec.ofNat 64 (t.length / 64 + if t.length % 64 < 48 then 1 else 2) := by
  rw [(State.finalHash_spec p s).2, h.plen, h.ncomp, BitVec.ofNat_add]
  split <;> rfl

/-- Settles O45: what the calls absorb, by `Absorbed.absorbAll`, and FINAL's digest and count of it. -/
theorem messageDigest : Obligations.MessageDigest := by
  intro p s chunks hc m pad plain salted
  have hc' : ∀ c ∈ chunks, 8 * c.length < 2 ^ 64 := fun c h => by have := hc c h; omega
  have hplain : Absorbed p m (s.initHash.absorbAll p chunks) := (absorbed_initHash p s).absorbAll chunks hc'
  have hsalted : Absorbed p (List.replicate 64 0 ++ m) ((s.initSaltedHash p).absorbAll p chunks) :=
    (absorbed_initSaltedHash p s).absorbAll chunks hc'
  have hlen : (List.replicate 64 (0 : Byte) ++ m).length = 64 + m.length := by
    rw [List.length_append, List.length_replicate]
  refine ⟨?_, hplain.finalHash_ncomp, ?_, ?_⟩
  · have h := hplain.finalHash_chain
    rw [State.absorbAll_salted, State.absorbAll_salt] at h
    exact h.trans (digestOf_unsalted p zeroBlock m)
  · have h := hsalted.finalHash_chain
    rw [State.absorbAll_salted, State.absorbAll_salt, State.initSaltedHash_salted, State.initSaltedHash_salt] at h
    exact h.trans (digestOf_salted p (saltBytes s) m)
  · have h := hsalted.finalHash_ncomp
    rw [hlen, Nat.add_mod_left, show (64 + m.length) / 64 = 1 + m.length / 64 by omega] at h
    exact h

end Sys2Proof.Machine
end

section
/-! Proofs of the family 41_state_controller: what each command's completion leaves (R142 to R158). The engine's
`exec` is said once for each command that is admitted; its result is then that of ABSORB or FINAL. -/

namespace Sys2Proof.Machine

variable {s : State} {len : BitVec 7}

/-- Settles O34: `exec` of NOP is the end of a completion step. -/
theorem nopCompletes : Obligations.NopCompletes := ⟨fun _ => rfl, decode_encode .nop, fun _ => rfl⟩

/-- Settles O35: `exec` of INIT is its writes and the end of a completion step. -/
theorem initCompletes : Obligations.InitCompletes := ⟨decode_encode .init, fun _ => rfl, fun _ => rfl⟩

/-- INIT_SALTED's completion, in every lifecycle state (R144). -/
theorem exec_initSalted (s : State) : exec .initSalted s = .next (s.initSaltedHash Config.params).finish := rfl

/-- UPDATE's completion in ACCUMULATING, with a legal length (R152). -/
theorem exec_update_of_legal (hl : s.lstate = .accumulating) (hlen : len.toNat ≤ 64) :
    exec (.update len) s = .next (s.absorb Config.params (dataBytes len s)).finish := by
  simp only [exec, execUpdate, hl, admission_update_accumulating rfl hlen]

/-- FINAL's completion in ACCUMULATING (R154). -/
theorem exec_final_of_accumulating (hl : s.lstate = .accumulating) :
    exec .final s = .next (s.finalHash Config.params).finish := by
  simp [exec, execFinal, admission, hl]

/-! ## INIT_SALTED -/

/-- A compression from the zero chain: only the columns of the block's half add to a row (R121, R149). -/
theorem toNat_nextChain_zeroWords (p : Params) (b : Block) (r : Fin 8) :
    (nextChain p zeroWords b)[r].toNat =
      ((List.finRange 512).map fun j : Fin 512 => ((b[j.val / 8]'(by omega)).getLsbD (j.val % 8)).toNat *
        (p.matrix r ⟨512 + j.val, by omega⟩).toNat).sum % 2 ^ 64 := by
  have hchain (j : Fin 512) :
      (cinBit (compressionInput zeroWords b) (Fin.castAdd 512 j)).toNat = 0 := by
    rw [cinBit_compressionInput_chain _ _ _ j.isLt, getElem_zeroWords, BitVec.getLsbD_zero]
    rfl
  have hblock (j : Fin 512) : (cinBit (compressionInput zeroWords b) (Fin.natAdd 512 j)).toNat =
      ((b[j.val / 8]'(by omega)).getLsbD (j.val % 8)).toNat := by
    have hbyte := getElem_compressionInput_block zeroWords b (j.val / 8) (by omega)
    have e1 : (512 + j.val) / 8 = 64 + j.val / 8 := by omega
    have e2 : (512 + j.val) % 8 = j.val % 8 := by omega
    simp only [cinBit_eq_getLsbD, Fin.val_natAdd, e1, e2, hbyte, BitVec.toNat_ofBool]
  have hsum : ∑ i : Fin (512 + 512), (cinBit (compressionInput zeroWords b) i).toNat * (p.matrix r i).toNat =
      ∑ j : Fin 512, ((b[j.val / 8]'(by omega)).getLsbD (j.val % 8)).toNat *
        (p.matrix r (Fin.natAdd 512 j)).toNat := by
    rw [Fin.sum_univ_add]
    simp only [hchain, hblock, Nat.zero_mul, Finset.sum_const_zero, Nat.zero_add]
  rw [nextChain, accumulate_eq_list_sum, toNat_sum_columnTerm, ← Fin.sum_univ_def, ← Fin.sum_univ_def]
  exact congrArg (· % 2 ^ 64) hsum

/-- The zero block counts 512 bits (R149). -/
theorem initSaltedHash_bitcnt (p : Params) (s : State) :
    (s.initSaltedHash p).bitcntLo = 512 ∧ (s.initSaltedHash p).bitcntHi = 0 :=
  ⟨(absorbed_initSaltedHash p s).bitcntLo, (absorbed_initSaltedHash p s).bitcntHi⟩

/-- Settles O36: the salt and the chain of `State.initSaltedHash_spec`, read byte by byte and row by row. -/
theorem initSaltedCompletes : Obligations.InitSaltedCompletes := by
  intro s
  obtain ⟨hchain, hplen, hncomp⟩ := State.initSaltedHash_spec Config.params s
  obtain ⟨hlo, hhi⟩ := initSaltedHash_bitcnt Config.params s
  refine ⟨_, exec_initSalted s, fun j => ?_, fun r => ?_, ?_⟩
  · rw [State.finish_salt, State.initSaltedHash_salt]
    exact getElem_byteImage s.saltIn j.val j.isLt
  · simp only [State.finish_chain, State.finish_salt, State.initSaltedHash_salt, hchain]
    exact toNat_nextChain_zeroWords Config.params (saltBytes s) r
  · ext1 <;> simp [hplen, hncomp, hlo, hhi]

/-! ## UPDATE -/

theorem length_dataBytes (s : State) (hlen : len.toNat ≤ 64) : (dataBytes len s).length = len.toNat := by
  rw [dataBytes, List.length_take, Vector.length_toList]
  omega

/-- Byte `k` of UPDATE's data is byte `k mod 8` of DATA_IN's word `k div 8` (R92). -/
theorem getD_dataBytes (s : State) (k : Nat) (hk : k < len.toNat) (h64 : k < 64) :
    (dataBytes len s).getD k 0 = wordByte (s.dataIn[k / 8]'(by omega)) (k % 8) := by
  rw [dataBytes, getD_take _ _ _ hk, ← getElem_byteImage s.dataIn k h64]
  simp [List.getD_eq_getElem?_getD, h64]

theorem writeBytes_nil (b : Block) (start : Nat) : writeBytes b start [] = b := by
  ext1 j hj
  rw [getElem_writeBytes]
  exact if_neg (by rw [List.length_nil]; omega)

/-- ABSORB that does not fill a block appends its data, none of it included (R146, steps 1 to 3). -/
theorem absorb_of_not_filling (p : Params) (d : List Byte) (h : s.plen.toNat + d.length < 64) :
    s.absorb p d = { s.countAdd d.length with
      buf := writeBytes s.buf s.plen.toNat d, plen := BitVec.ofNat 6 (s.plen.toNat + d.length) } := by
  by_cases hd : d = []
  · subst hd
    ext1 <;> simp [writeBytes_nil]
  · exact State.absorb_append s p d hd h

/-- Settles O37: `absorb_of_not_filling`, with BUF read byte by byte. -/
theorem updateAppends : Obligations.UpdateAppends := by
  intro s len hl h
  have hlen := length_dataBytes s (len := len) (by omega)
  have hfits : s.plen.toNat + (dataBytes len s).length < 64 := by omega
  have habs := absorb_of_not_filling Config.params _ hfits
  have hbuf (j : Fin 64) : (s.absorb Config.params (dataBytes len s)).finish.buf[j] =
      if s.plen.toNat ≤ j.val ∧ j.val < s.plen.toNat + len.toNat then
        (dataBytes len s).getD (j.val - s.plen.toNat) 0
      else s.buf[j] := by
    rw [State.finish_buf, habs, ← hlen]
    exact getElem_writeBytes s.buf s.plen.toNat (dataBytes len s) j.val j.isLt
  refine ⟨_, exec_update_of_legal hl (by omega), fun j hj => (hbuf j).trans (if_neg (by omega)),
    fun j hj hj' => ?_, fun j hj => (hbuf j).trans (if_neg (by omega)), ?_, ?_, ?_⟩
  · rw [hbuf j, if_pos ⟨hj, hj'⟩, getD_dataBytes s _ (by omega) (by omega)]
    rfl
  · rw [State.finish_plen, habs, hlen]
    exact toNat_plen _ h
  · rw [← hlen]
    exact bitcnt_absorb Config.params (dataBytes len s) s (by omega)
  · rw [habs]
    rfl

/-- A sequence of one whole block and less than another is one compression (R148). -/
theorem chainOf_one_block (p : Params) (salted : Bool) (salt : Block) (c : Words8) (t : List Byte)
    (h : 64 ≤ t.length) (h' : t.length < 128) :
    chainOf p salted salt c t = nextChain p c (mixSalt salted salt (blockOf t)) := by
  rw [chainOf_cons_block p salted salt c t h, chainOf_short]
  rw [List.length_drop]
  omega

/-- Settles O38: `State.absorb_spec` for at most 64 bytes that fill a block. -/
theorem updateCompresses : Obligations.UpdateCompresses := by
  intro s len hl h64 h
  have hr := s.plen.isLt
  have hlen := length_dataBytes s h64
  have hpend := length_pendingBytes s
  have hmod : (s.plen.toNat + len.toNat) % 64 = s.plen.toNat + len.toNat - 64 := by omega
  have hdiv : (s.plen.toNat + len.toNat) / 64 = 1 := by omega
  obtain ⟨hchain, hplen, hncomp, hbuf⟩ := State.absorb_spec Config.params (dataBytes len s) s
  rw [hlen, hmod] at hplen
  rw [hlen, hdiv] at hncomp
  simp only [hlen, hmod, hdiv] at hbuf
  refine ⟨_, exec_update_of_legal hl h64, hchain.trans ?_, fun j hj => ?_, hplen, hncomp, ?_,
    congrArg State.finish (State.absorb_frame s Config.params (dataBytes len s))⟩
  · apply chainOf_one_block <;> rw [List.length_append] <;> omega
  · refine (hbuf j.val j.isLt hj).trans ?_
    rw [getD_append_right _ _ _ (by omega), hpend]
    congr 1
    omega
  · rw [← hlen]
    exact bitcnt_absorb Config.params (dataBytes len s) s (by omega)

/-! ## FINAL and the lifecycle -/

/-- Settles O39: `State.finalHash_spec`, and the frame of FINAL's writes. -/
theorem finalCompletes : Obligations.FinalCompletes := by
  intro s hl
  obtain ⟨hchain, hncomp⟩ := State.finalHash_spec Config.params s
  exact ⟨_, exec_final_of_accumulating hl, hchain, hncomp,
    congrArg State.finish (State.finalHash_frame s Config.params)⟩

/-- UPDATE with a legal length and FINAL are not admitted outside ACCUMULATING (R213). -/
theorem admission_outside_accumulating {i : Instr} {l : LState} (hw : i.wellFormed = true)
    (hop : opcode i = 3 ∨ opcode i = 4) (hl : l ≠ .accumulating) : admission i l = some .invalidState := by
  cases i with
  | update len =>
    have hlen : Instr.lenLegal len = true := hw
    simp [admission, hlen, hl]
  | final => simp [admission, hl]
  | nop => exact absurd hop (by decide)
  | init => exact absurd hop (by decide)
  | initSalted => exact absurd hop (by decide)

/-- Settles O41: each completion's lifecycle state, and the rejection of UPDATE and FINAL. -/
theorem lifecycleTransitions : Obligations.LifecycleTransitions := by
  intro s
  refine ⟨rfl, ⟨_, rfl, rfl⟩, ⟨_, rfl, rfl⟩, ⟨_, exec_initSalted s, State.initSaltedHash_lstate s Config.params⟩,
    fun len hlen hl => ⟨_, exec_update_of_legal hl hlen, (State.absorb_lstate ..).trans hl⟩,
    fun hl => ⟨_, exec_final_of_accumulating hl, rfl⟩, fun hl hb i hw hop => ?_⟩
  have hrej : busWrite 64 0 (encode i) s = s.reject .invalidState :=
    (busWrite_cmd (encode i) s).trans
      (writeCmd_of_not_admitted hb (decode_encode i) (admission_outside_accumulating hw hop hl))
  rw [hrej]
  exact ⟨State.reject_lstate .., (State.reject_busy ..).trans hb, fun he => by simp [he]⟩

end Sys2Proof.Machine
end

section
/-! Proofs of the family 41_state_controller: acceptance (R140), the engine's move on the latched command (R141),
and what stays in FINALIZED (R159). -/

namespace Sys2Proof.Machine

variable {s t : State} {i : Instr}

/-- Settles O8: a CMD write of an admitted command is acceptance. -/
theorem acceptanceLatchesOnly : Obligations.AcceptanceLatchesOnly := fun s v _ hb hd ha =>
  (busWrite_cmd v s).trans (writeCmd_of_admitted hb hd ha)

/-- The engine's move with BUSY = 1 is the completion of the latched command (R141). -/
theorem engineTurn_of_latched (hb : s.busy = true) (hi : latchedInstr s = some i) : engineTurn s = exec i s := by
  simp only [engineTurn, hb, if_true, hi]

theorem engineTurn_of_idle (hb : s.busy = false) : engineTurn s = .next s := by
  simp [engineTurn, hb]

/-- A step in which the engine's turn is listed first (log 1). -/
theorem step_of_engine_listed {rest : List Turn} (ht : s.turns = .engine :: rest) :
    step s = engineTurn { s with turns := rest } := by
  simp only [step, ht, takeTurn]

/-- The latch holds the command that a word whose fields it holds decodes to (R140). -/
theorem latchedInstr_of_decode {w : Word} (hd : decode w = .ok i) (hop : s.latchOp = opField w)
    (hlen : s.latchLen = lenField w) : latchedInstr s = some i := by
  rw [latchedInstr, hop, hlen]
  exact (decode_ok hd).1

/-- Settles O5: the engine moves by default or by its listed turn, and its move is `exec` of the latch. -/
theorem stepRunsLatchedCommand : Obligations.StepRunsLatchedCommand := by
  intro s w i hb hd hop hlen
  have hi : latchedInstr s = some i := latchedInstr_of_decode hd hop hlen
  refine ⟨fun ht => ?_, fun rest ht => ?_⟩
  · rw [step_of_busy ht hb, engineTurn_of_latched hb hi]
  · rw [step_of_engine_listed ht]
    exact engineTurn_of_latched hb hi

/-- A table word that decodes, as a 64-bit command word: it is the command's encoding (R90, R93). -/
theorem eq_encode_of_decodeTableWord {nbits w : Nat} (h : decodeTableWord nbits w = some i) :
    BitVec.ofNat 64 (w % 2 ^ nbits) = encode i := by
  unfold decodeTableWord at h
  cases hd : decode (BitVec.ofNat 64 (w % 2 ^ nbits)) with
  | error e =>
    rw [hd] at h
    cases h
  | ok j =>
    rw [hd] at h
    cases h
    exact eq_encode_of_decode hd

/-- A command's word is placed in the latch, with the engine's turn first (log 11). -/
theorem withFetchWord_of_encode {nbits w : Nat} (h : BitVec.ofNat 64 (w % 2 ^ nbits) = encode i) :
    s.withFetchWord nbits w = { s.latch (opcode i) (lenOf i) with turns := .engine :: s.turns } := by
  simp only [State.withFetchWord, h, decode_encode, opField_encode, lenField_encode]

/-- Settles O6: the word is latched, and the engine's turn listed first runs it. -/
theorem fetchedWordRunsNext : Obligations.FetchedWordRunsNext := by
  intro s nbits w i h
  rw [withFetchWord_of_encode (eq_encode_of_decodeTableWord h), step_of_engine_listed rfl]
  exact engineTurn_of_latched rfl (instrOfFields_opcode i)

/-- The completion of an admitted command leaves ERR and ERRCODE as they were (R141). -/
theorem exec_keeps_error (ha : admission i s.lstate = none) (h : exec i s = .next t) :
    t.err = s.err ∧ t.errcode = s.errcode := by
  rcases exec_cases i s with ⟨c, h0, -⟩ | ⟨-, ⟨-, e⟩ | ⟨-, e⟩ | ⟨-, e⟩ | ⟨len, -, e⟩ | ⟨-, e⟩⟩
  · rw [ha] at h0
    cases h0
  all_goals (rw [e] at h; cases h; simp)

/-- Settles O7: the invariant's latched command is admitted, and its completion always answers. -/
theorem completionRaisesNoError : Obligations.CompletionRaisesNoError := by
  refine ⟨fun s hinv hb => ?_, fun s => engineTurn_of_idle⟩
  obtain ⟨i, hi, ha⟩ := hinv.latched hb
  obtain ⟨t, ht⟩ := exec_next i s
  obtain ⟨hbusy, hdone, -⟩ := exec_frame ha ht
  exact ⟨t, (engineTurn_of_latched hb hi).trans ht, hbusy, hdone, exec_keeps_error ha ht⟩

/-! ## What stays in FINALIZED -/

/-- What FINAL left stands in the second state as in the first (R159). -/
def ResultKept (s t : State) : Prop :=
  t.lstate = s.lstate ∧ t.chain = s.chain ∧ t.bitcntLo = s.bitcntLo ∧ t.bitcntHi = s.bitcntHi ∧
    t.salt = s.salt ∧ t.salted = s.salted ∧ t.plen = s.plen ∧ t.buf = s.buf ∧ t.ncomp = s.ncomp

theorem ResultKept.refl (s : State) : ResultKept s s := ⟨rfl, rfl, rfl, rfl, rfl, rfl, rfl, rfl, rfl⟩

/-- Whose turn it is does not matter. -/
theorem ResultKept.of_popTurn (h : ResultKept s.popTurn t) : ResultKept s t := h

theorem ResultKept.turnAway (s : State) (c : ErrCode) : ResultKept s (s.turnAway c) := by
  simp [ResultKept]

/-- Of all bus writes only the test hook's touches the result, and in ACCUMULATING alone (R190). -/
theorem ResultKept.busWrite (hl : s.lstate = .finalized) (width off : Nat) (v : Word) :
    ResultKept s (busWrite width off v s) := by
  have hl' : s.lstate ≠ .accumulating := by simp [hl]
  rcases busWrite_cases width off v s with e | ⟨c, -, e⟩ | ⟨c, -, -, -, e⟩ | ⟨-, -, e⟩ | ⟨-, e⟩ |
      ⟨-, ha, -⟩ | ⟨-, ha, -⟩ | ⟨-, k, -, e⟩ | ⟨-, k, -, e⟩ | ⟨-, -, i, -, -, e⟩
  case inr.inr.inr.inr.inr.inl => exact absurd ha hl'
  case inr.inr.inr.inr.inr.inr.inl => exact absurd ha hl'
  all_goals
    rw [e]
    simp [ResultKept]

theorem ResultKept.busRead (p : Params) (width off : Nat) (s : State) :
    ResultKept s (busRead p width off s).2 := by
  rcases busRead_cases p width off s with e | e | e <;> rw [e] <;> simp [ResultKept]

theorem ResultKept.hostTurn (hl : s.lstate = .finalized) {p : Params} (h : hostTurn p s = .next t) :
    ResultKept s t := by
  rcases hostTurn_cases h with rfl | ⟨width, off, v, rest, -, rfl⟩ | ⟨width, off, prog, reads, rfl⟩ |
      ⟨prog, arrays, rfl⟩
  · exact .refl t
  · exact ResultKept.busWrite hl width off v
  · exact ResultKept.busRead p width off s
  · exact .refl s

/-- In FINALIZED a completion keeps the result, or is INIT's or INIT_SALTED's: UPDATE and FINAL are not admitted
(R159, R213). -/
theorem ResultKept.exec (hl : s.lstate = .finalized) (h : exec i s = .next t) :
    ResultKept s t ∨ i = .init ∨ i = .initSalted := by
  rcases exec_cases i s with ⟨c, -, e⟩ | ⟨ha, ⟨-, e⟩ | ⟨rfl, -⟩ | ⟨rfl, -⟩ | ⟨len, rfl, -⟩ | ⟨rfl, -⟩⟩
  · rw [e] at h
    cases h
    exact .inl (.turnAway s c)
  · rw [e] at h
    cases h
    exact .inl (.refl s)
  · exact .inr (.inl rfl)
  · exact .inr (.inr rfl)
  · have hacc := accumulating_of_admission_update ha
    rw [hl] at hacc
    cases hacc
  · simp [admission, hl] at ha

/-- Settles O51: the host's turn keeps the result, and so does a completion but for the two commands named. -/
theorem finalizedStateIsFrozen : Obligations.FinalizedStateIsFrozen := by
  intro s s' hl hs
  have hl' : s.popTurn.lstate = .finalized := hl
  rw [← hl]
  rcases step_cases hs with ⟨-, e⟩ | ⟨hn, e⟩ | ⟨hn, -⟩
  · exact .inl (ResultKept.hostTurn hl' e).of_popTurn
  · rcases engineTurn_cases e with ⟨-, rfl⟩ | ⟨hb, i, hi, ht⟩
    · exact .inl (ResultKept.refl s.popTurn).of_popTurn
    · rcases ResultKept.exec hl' ht with hk | rfl | rfl
      · exact .inl hk.of_popTurn
      · exact .inr (.inr ⟨hn, hb, .inl hi⟩)
      · exact .inr (.inr ⟨hn, hb, .inr hi⟩)
  · exact .inr (.inl hn)

end Sys2Proof.Machine
end

section
/-! Proofs of the family 42_register_access: what each register's read and write do (R183 to R194), and the
state no access reaches (R200). -/

namespace Sys2Proof.Machine

variable {s t : State}

/-! ## STATUS and CTRL -/

/-- A write of STATUS clears by mask (R184). -/
theorem clearFlags_eq (s : State) (v : Word) :
    s.clearFlags v =
      { s with
        done := s.done && !v.getLsbD 4
        err := s.err && !v.getLsbD 5
        errcode := if v.getLsbD 5 then .noError else s.errcode } := by
  unfold State.clearFlags
  congr 1
  · cases v.getLsbD 4 <;> simp
  · cases v.getLsbD 5 <;> simp

/-- Settles O16: the latch outlives a write of STATUS, so the latched command still completes and sets DONE. -/
theorem statusWriteClears : Obligations.StatusWriteClears := by
  intro s v
  rw [busWrite_status]
  refine ⟨clearFlags_eq s v, fun i hb hi => ?_⟩
  obtain ⟨t, ht⟩ := exec_next i (s.clearFlags v)
  exact ⟨t, (engineTurn_of_latched (s := s.clearFlags v) hb hi).trans ht, exec_done ht⟩

theorem getLsbD_flagWord (b : Bool) (i : Nat) : (flagWord b).getLsbD i = (decide (i = 0) && b) := by
  cases i with
  | zero => simp [flagWord]
  | succ i => simp [flagWord]

section

variable (plen : BitVec 6) (code : ErrCode) (err done busy salted : Bool) (lstate : BitVec 2)

/-- STATUS bit by bit, as R38 lays it out. -/
theorem getLsbD_statusWord {i : Nat} (hi : i < 64) :
    (statusWord plen code err done busy salted lstate).getLsbD i =
      if i < 2 then lstate.getLsbD i
      else if i < 3 then salted
      else if i < 4 then busy
      else if i < 5 then done
      else if i < 6 then err
      else if i < 8 then false
      else if i < 12 then code.code.getLsbD (i - 8)
      else if i < 16 then false
      else plen.getLsbD (i - 16) := by
  simp only [statusWord, BitVec.getLsbD_or, BitVec.getLsbD_shiftLeft, BitVec.getLsbD_setWidth, getLsbD_flagWord]
  interval_cases i <;> simp

theorem statusWord_flags :
    (statusWord plen code err done busy salted lstate).getLsbD 2 = salted ∧
    (statusWord plen code err done busy salted lstate).getLsbD 3 = busy ∧
    (statusWord plen code err done busy salted lstate).getLsbD 4 = done ∧
    (statusWord plen code err done busy salted lstate).getLsbD 5 = err :=
  ⟨getLsbD_statusWord _ _ _ _ _ _ _ (by decide), getLsbD_statusWord _ _ _ _ _ _ _ (by decide),
    getLsbD_statusWord _ _ _ _ _ _ _ (by decide), getLsbD_statusWord _ _ _ _ _ _ _ (by decide)⟩

theorem statusWord_lstate : (statusWord plen code err done busy salted lstate).extractLsb' 0 2 = lstate := by
  ext j hj
  simp (disch := omega) [← BitVec.getLsbD_eq_getElem, getLsbD_statusWord, hj]

theorem statusWord_errcode : (statusWord plen code err done busy salted lstate).extractLsb' 8 4 = code.code := by
  ext j hj
  simp (disch := omega) [← BitVec.getLsbD_eq_getElem, getLsbD_statusWord, hj, if_pos, if_neg]

theorem statusWord_plen : (statusWord plen code err done busy salted lstate).extractLsb' 16 6 = plen := by
  ext j hj
  simp (disch := omega) [← BitVec.getLsbD_eq_getElem, getLsbD_statusWord, hj, if_neg]

/-- The reserved bits of STATUS are 0 (R38). -/
theorem statusWord_reserved :
    (statusWord plen code err done busy salted lstate).extractLsb' 6 2 = 0 ∧
    (statusWord plen code err done busy salted lstate).extractLsb' 12 4 = 0 ∧
    (statusWord plen code err done busy salted lstate).extractLsb' 22 42 = 0 := by
  refine ⟨?_, ?_, ?_⟩ <;> ext j hj <;>
    simp (disch := omega) [← BitVec.getLsbD_eq_getElem, getLsbD_statusWord, if_neg]

end

/-- While BUSY = 0 a read of STATUS gives every field and changes nothing (R183). -/
theorem readStatus_idle (hb : s.busy = false) : readStatus s = (statusIdle s, s) := by
  simp [readStatus, hb]

/-- Whatever BUSY is, STATUS is laid out as R38 says, with BUSY, DONE, ERR and ERRCODE exact (R73, R183). -/
theorem readStatus_exact (s : State) : ∃ plen salted lstate,
    (readStatus s).1 = statusWord plen s.errcode s.err s.done s.busy salted lstate := by
  unfold readStatus
  split
  · exact ⟨_, _, _, rfl⟩
  · exact ⟨_, _, _, rfl⟩

/-- Settles O17: `readStatus_idle` and `readStatus_exact`, with STATUS's fields. -/
theorem statusReads : Obligations.StatusReads := by
  intro p s
  simp only [busRead_status, readReg]
  refine ⟨fun hb => ?_, ?_⟩
  · rw [readStatus_idle hb]
    exact ⟨rfl, statusWord_lstate .., (statusWord_flags ..).1, statusWord_plen ..⟩
  · obtain ⟨plen, salted, lstate, e⟩ := readStatus_exact s
    obtain ⟨-, hbusy, hdone, herr⟩ := statusWord_flags plen s.errcode s.err s.done s.busy salted lstate
    obtain ⟨h6, h12, h22⟩ := statusWord_reserved plen s.errcode s.err s.done s.busy salted lstate
    rw [e]
    refine ⟨hbusy, hdone, herr, h6, statusWord_errcode .., h12, h22, ?_⟩
    rcases readStatus_cases s with e | e <;> rw [e]
    rfl

/-- CTRL reads back the two bits a write sets (R185, R186). -/
theorem ctrlWord_setCtrl (s : State) (v : Word) : ctrlWord (s.setCtrl v) = v &&& 0x3 := by
  have h3 : (0x3 : Word) = (0x3#2).setWidth 64 := rfl
  ext i hi
  simp only [← BitVec.getLsbD_eq_getElem, h3, ctrlWord, State.setCtrl_errIe, State.setCtrl_doneIe, BitVec.getLsbD_or,
    BitVec.getLsbD_shiftLeft, BitVec.getLsbD_and, BitVec.getLsbD_setWidth, getLsbD_flagWord]
  match i with
  | 0 => simp
  | 1 => simp
  | i + 2 => simp

/-- Settles O19: CTRL's write is `setCtrl`, and its read after that is `ctrlWord_setCtrl`. -/
theorem ctrlReadsBack : Obligations.CtrlReadsBack := by
  intro p s v
  rw [busWrite_ctrl, busRead_ctrl, busRead_ctrl]
  exact ⟨rfl, rfl, congrArg (·, s.setCtrl v) (ctrlWord_setCtrl s v)⟩

/-! ## The counters -/

section

variable {set : State}

/-- The test hook's first check (R190). -/
theorem writeHook_busy (hb : s.busy = true) : writeHook set s = s.raise .busyWrite := if_pos hb

/-- The test hook's second check (R190). -/
theorem writeHook_outside_accumulating (hb : s.busy = false) (hl : s.lstate ≠ .accumulating) :
    writeHook set s = s.raise .invalidState := by
  simp [writeHook, hb, hl]

theorem writeHook_accumulating (hb : s.busy = false) (hl : s.lstate = .accumulating) : writeHook set s = set := by
  simp [writeHook, hb, hl]

end

/-- Settles O21: the test hook's two checks, and its write. -/
theorem counterTestHook : Obligations.CounterTestHook := by
  intro s v
  simp only [busWrite_bitcntLo, busWrite_bitcntHi, writeReg]
  exact ⟨fun hb => ⟨writeHook_busy hb, writeHook_busy hb⟩,
    fun hb hl => ⟨writeHook_outside_accumulating hb hl, writeHook_outside_accumulating hb hl⟩,
    fun hb hl => ⟨writeHook_accumulating hb hl, writeHook_accumulating hb hl⟩⟩

theorem readUnlessBusy_idle (v : Word) (hb : s.busy = false) : readUnlessBusy v s = (v, s) := by
  simp [readUnlessBusy, hb]

/-- Settles O22: `readUnlessBusy_idle` for each of the three registers. -/
theorem countersReadBack : Obligations.CountersReadBack := by
  intro p s hb
  simp only [busRead_ncomp, busRead_bitcntLo, busRead_bitcntHi, readReg]
  exact ⟨readUnlessBusy_idle s.ncomp hb, readUnlessBusy_idle s.bitcntLo hb, readUnlessBusy_idle s.bitcntHi hb⟩

/-! ## Staging registers, DIGEST and ID -/

/-- The check of a staging write (R194). -/
theorem writeStaging_busy {set : State} (hb : s.busy = true) : writeStaging set s = s.raise .busyWrite := if_pos hb

/-- Settles O23: an idle staging write sets one word, which its register reads; a busy one is dropped. -/
theorem stagingReadsBack : Obligations.StagingReadsBack := by
  intro p s v k
  refine ⟨fun hb => ?_, fun hb =>
    ⟨(busWrite_saltIn k v s).trans (writeStaging_busy hb), (busWrite_dataIn k v s).trans (writeStaging_busy hb)⟩⟩
  have hs : busWrite 64 (0x080 + 8 * k.val) v s = { s with saltIn := s.saltIn.set k v } := busWrite_saltIn_idle k v hb
  have hd : busWrite 64 (0x0C0 + 8 * k.val) v s = { s with dataIn := s.dataIn.set k v } := busWrite_dataIn_idle k v hb
  refine ⟨?_, ?_, hs, hd⟩
  · rw [hs, busRead_saltIn]
    exact Vector.getElem_set_self ..
  · rw [hd, busRead_dataIn]
    exact Vector.getElem_set_self ..

theorem digestWord_finalized (hl : s.lstate = .finalized) (hb : s.busy = false) (k : Fin 8) :
    digestWord s k = s.chain[k] := if_pos ⟨hl, hb⟩

theorem digestWord_not_finalized (hl : s.lstate ≠ .finalized) (k : Fin 8) : digestWord s k = 0 :=
  if_neg fun h => hl h.1

/-- Settles O24: the digest where it may be read, and 0 before FINAL and while a command runs. -/
theorem digestVisibility : Obligations.DigestVisibility := by
  intro p s k
  rw [busRead_digest]
  refine ⟨fun hl hb => congrArg (·, s) (digestWord_finalized hl hb k), fun h => congrArg (·, s) ?_⟩
  rcases h with hl | hb
  · exact digestWord_not_finalized hl k
  · exact digestWord_busy hb k

/-- Settles O25: ID is a word of the parameters alone. -/
theorem idIsConstant : Obligations.IdIsConstant := by
  intro p s
  rw [busRead_id]
  refine ⟨fun h => congrArg (·, s) ?_, fun h => congrArg (·, s) ?_⟩
  · rw [idWord, h]
    decide
  · rw [idWord, h]
    decide

/-! ## What no access reaches -/

/-- The hash state, and the read-only fields PLEN, SALTED, LSTATE and NCOMP, stand in the second state as in the
first, and so does the latch, unless a command was accepted (R27, R38, R188, R200). -/
def HiddenKept (s t : State) : Prop :=
  t.chain = s.chain ∧ t.salt = s.salt ∧ t.buf = s.buf ∧ t.acc = s.acc ∧ t.col = s.col ∧
    t.plen = s.plen ∧ t.salted = s.salted ∧ t.lstate = s.lstate ∧ t.ncomp = s.ncomp ∧
    ((t.latchOp = s.latchOp ∧ t.latchLen = s.latchLen) ∨ (s.busy = false ∧ t.busy = true))

theorem HiddenKept.refl (s : State) : HiddenKept s s :=
  ⟨rfl, rfl, rfl, rfl, rfl, rfl, rfl, rfl, rfl, .inl ⟨rfl, rfl⟩⟩

theorem HiddenKept.busWrite (width off : Nat) (v : Word) (s : State) :
    HiddenKept s (busWrite width off v s) := by
  rcases busWrite_cases width off v s with e | ⟨c, -, e⟩ | ⟨c, -, -, -, e⟩ | ⟨-, -, e⟩ | ⟨-, e⟩ |
      ⟨-, -, -, e⟩ | ⟨-, -, -, e⟩ | ⟨-, k, -, e⟩ | ⟨-, k, -, e⟩ | ⟨hb, -, i, -, -, e⟩ <;>
    rw [e]
  case inr.inr.inr.inr.inr.inr.inr.inr.inr =>
    exact ⟨rfl, rfl, rfl, rfl, rfl, rfl, rfl, rfl, rfl, .inr ⟨hb, rfl⟩⟩
  all_goals simp [HiddenKept]

theorem HiddenKept.busRead (p : Params) (width off : Nat) (s : State) :
    HiddenKept s (busRead p width off s).2 := by
  rcases busRead_cases p width off s with e | e | e <;> rw [e] <;> simp [HiddenKept]

theorem HiddenKept.hostTurn {p : Params} (h : hostTurn p s = .next t) : HiddenKept s t := by
  rcases hostTurn_cases h with rfl | ⟨width, off, v, rest, -, rfl⟩ | ⟨width, off, prog, reads, rfl⟩ |
      ⟨prog, arrays, rfl⟩
  · exact .refl t
  · exact HiddenKept.busWrite width off v s
  · exact HiddenKept.busRead p width off s
  · exact .refl s

/-- The state with another chain, salt and latch. -/
def State.withSecret (s : State) (chain : Words8) (salt : Block) (op : BitVec 4) (len : BitVec 7) : State :=
  { s with chain := chain, salt := salt, latchOp := op, latchLen := len }

section

variable {chain : Words8} (salt : Block) (op : BitVec 4) (len : BitVec 7)

/-- A digest word that may be read is the chain's; any other is 0 whatever the chain (R192). -/
theorem digestWord_withSecret (hc : s.lstate = .finalized → s.busy = false → chain = s.chain) (k : Fin 8) :
    digestWord (s.withSecret chain salt op len) k = digestWord s k := by
  by_cases hv : s.lstate = .finalized ∧ s.busy = false
  · rw [hc hv.1 hv.2]
    rfl
  · exact (if_neg hv).trans (if_neg hv).symm

theorem readStatus_withSecret (chain : Words8) :
    (readStatus (s.withSecret chain salt op len)).1 = (readStatus s).1 := by
  cases hb : s.busy <;> simp [readStatus, State.withSecret, hb, statusIdle, statusBusy]

theorem readUnlessBusy_withSecret (chain : Words8) (v : Word) :
    (readUnlessBusy v (s.withSecret chain salt op len)).1 = (readUnlessBusy v s).1 := by
  cases hb : s.busy <;> simp [readUnlessBusy, State.withSecret, hb]

/-- No register's value depends on MATRIX, SALT and the latch, nor on CHAIN but for a readable digest (R200). -/
theorem readReg_withSecret (hc : s.lstate = .finalized → s.busy = false → chain = s.chain) (p : Params)
    (m : Fin 8 → Fin 1024 → Word) (r : Reg) :
    (readReg { p with matrix := m } r (s.withSecret chain salt op len)).1 = (readReg p r s).1 := by
  cases r with
  | status => exact readStatus_withSecret salt op len chain
  | ncomp => exact readUnlessBusy_withSecret salt op len chain s.ncomp
  | bitcntLo => exact readUnlessBusy_withSecret salt op len chain s.bitcntLo
  | bitcntHi => exact readUnlessBusy_withSecret salt op len chain s.bitcntHi
  | digest k => exact digestWord_withSecret salt op len hc k
  | _ => rfl

theorem busRead_withSecret (hc : s.lstate = .finalized → s.busy = false → chain = s.chain) (p : Params)
    (m : Fin 8 → Fin 1024 → Word) (width off : Nat) :
    (busRead { p with matrix := m } width off (s.withSecret chain salt op len)).1 = (busRead p width off s).1 := by
  unfold busRead
  split
  · rfl
  · split
    · rfl
    · exact readReg_withSecret salt op len hc p m _

end

/-- Settles O28: `HiddenKept.hostTurn`, and reads that see neither `withSecret` nor `withHidden`. -/
theorem hostCannotReachHiddenState : Obligations.HostCannotReachHiddenState := by
  refine ⟨fun s s' hn hs => ?_, fun p m s width off chain acc col salt buf op len hc => ?_⟩
  · rw [step_eq, hn] at hs
    have h : HiddenKept s.popTurn s' := HiddenKept.hostTurn hs
    exact h
  · have h := busRead_withHidden (s := s.withSecret chain salt op len) acc col buf { p with matrix := m } width off
    exact (congrArg Prod.fst h).trans (busRead_withSecret salt op len hc p m width off)

end Sys2Proof.Machine
end

section
/-! Proofs of the family 60_exceptions: the error form's writes (R214, R220), the checks of a CMD write in their
order (R218), and what raises INVALID_STATE, BUSY_WRITE and ACCESS (R213, R216, R217). -/

namespace Sys2Proof.Machine

variable {s : State} {v : Word} {i : Instr} {c : ErrCode} {width off : Nat}

/-! ## The error form -/

/-- An error records its code, unless one is recorded, and writes ERR and ERRCODE alone (R214). -/
theorem raise_eq (s : State) (c : ErrCode) :
    s.raise c = { s with err := true, errcode := if s.err then s.errcode else c } := by
  apply State.ext <;> simp

/-- A rejection is the same record with DONE set (R220). -/
theorem reject_eq (s : State) (c : ErrCode) :
    s.reject c = { s with done := true, err := true, errcode := if s.err then s.errcode else c } := by
  rw [State.reject, raise_eq]

/-- A completion turned away is a rejection that clears BUSY (log 3). -/
theorem turnAway_eq (s : State) (c : ErrCode) :
    s.turnAway c =
      { s with err := true, errcode := if s.err then s.errcode else c, busy := false, done := true } := by
  rw [State.turnAway, reject_eq]

/-! ## A command that is not admitted -/

/-- The completion of a command whose admission fails (log 3). -/
theorem exec_of_not_admitted (ha : admission i s.lstate = some c) : exec i s = .next (s.turnAway c) := by
  rcases exec_cases i s with ⟨c', hc', e⟩ | ⟨hnone, -⟩
  · rw [ha] at hc'
    cases hc'
    exact e
  · rw [ha] at hnone
    cases hnone

/-- Settles O40: the two reasons for which admission fails, each turned away. -/
theorem unadmittedCompletionTurnedAway : Obligations.UnadmittedCompletionTurnedAway := by
  intro s
  simp only [← turnAway_eq]
  refine ⟨fun len hlen => ?_, fun hl => ⟨fun len hlen => ?_, ?_⟩⟩
  · exact exec_of_not_admitted (admission_update_of_illegal (decide_eq_false (Nat.not_le.mpr hlen)) s.lstate)
  · exact exec_of_not_admitted (admission_outside_accumulating (decide_eq_true hlen) (.inl rfl) hl)
  · exact exec_of_not_admitted (admission_outside_accumulating rfl (.inr rfl) hl)

/-- A CMD write of a command whose admission fails (R218). -/
theorem busWrite_cmd_of_not_admitted (hb : s.busy = false) (ha : admission i s.lstate = some c) :
    busWrite 64 0 (encode i) s = s.reject c :=
  (busWrite_cmd (encode i) s).trans (writeCmd_of_not_admitted hb (decode_encode i) ha)

/-- Settles O10: neither command is admitted, and the test hook's second check fails. -/
theorem invalidStateRaised : Obligations.InvalidStateRaised := by
  intro s hb hl
  refine ⟨fun len hlen => ?_, ?_, fun v => ⟨?_, ?_⟩⟩
  · exact busWrite_cmd_of_not_admitted hb (admission_outside_accumulating (decide_eq_true hlen) (.inl rfl) hl)
  · exact busWrite_cmd_of_not_admitted hb (admission_outside_accumulating rfl (.inr rfl) hl)
  · exact (busWrite_bitcntLo v s).trans (writeHook_outside_accumulating hb hl)
  · exact (busWrite_bitcntHi v s).trans (writeHook_outside_accumulating hb hl)

/-! ## Accesses that raise ACCESS -/

/-- An access of another width, or at an offset that is not a multiple of 8, reaches no slot (R67, R180). -/
theorem Reg.ofAccess_eq_none (h : width ≠ 64 ∨ off % 8 ≠ 0) : Reg.ofAccess width off = none := by
  rcases h with hw | h8
  · exact if_neg hw
  · rw [Reg.ofAccess, Reg.ofOffset, if_pos h8, ite_self]

theorem busWrite_without_slot (hoff : off < windowBytes) (h : Reg.ofAccess width off = none) (v : Word) (s : State) :
    busWrite width off v s = s.raise .access := by
  rw [busWrite, if_neg (Nat.not_le.mpr hoff), h]

theorem busRead_without_slot (hoff : off < windowBytes) (h : Reg.ofAccess width off = none) (p : Params) (s : State) :
    busRead p width off s = (0, s.raise .access) := by
  rw [busRead, if_neg (Nat.not_le.mpr hoff), h]

/-- An aligned offset in the 64 bytes from `base` is that of one of the eight words there (R62). -/
theorem exists_word_of_range {base : Nat} (hlo : base ≤ off) (hhi : off < base + 64) (h8 : (off - base) % 8 = 0) :
    ∃ k : Fin 8, off = base + 8 * k.val :=
  ⟨⟨(off - base) / 8, by omega⟩, by simp only; omega⟩

/-- Settles O15: an access without a slot, the unmapped slot, and the slots that are only read. -/
theorem accessErrors : Obligations.AccessErrors := by
  refine fun p s v => ⟨fun width off hoff h => ?_, fun off h => ?_, fun c => ?_⟩
  · by_cases hslot : width ≠ 64 ∨ off % 8 ≠ 0
    · have hnone := Reg.ofAccess_eq_none hslot
      exact ⟨busRead_without_slot hoff hnone p s, busWrite_without_slot hoff hnone v s⟩
    · obtain ⟨rfl, rfl⟩ : width = 64 ∧ off = 0x038 := by omega
      exact ⟨busRead_unmapped p s, busWrite_unmapped v s⟩
  · rcases h with rfl | rfl | ⟨hlo, hhi, h8⟩
    · exact busWrite_ncomp v s
    · exact busWrite_id v s
    · obtain ⟨k, rfl⟩ := exists_word_of_range hlo hhi (by omega)
      exact busWrite_digest k v s
  · rw [raise_eq]

/-! ## Writes while BUSY = 1 -/

/-- The check of a CMD write after width and alignment (R218). -/
theorem writeCmd_busy (hb : s.busy = true) (v : Word) : writeCmd v s = s.raise .busyWrite := if_pos hb

/-- A write of CMD, of the test hook or of a staging word while BUSY = 1 (R216). -/
theorem busWrite_busy (hb : s.busy = true) (v : Word)
    (hoff : off = 0x000 ∨ off = 0x020 ∨ off = 0x028 ∨ (0x080 ≤ off ∧ off < 0x100 ∧ off % 8 = 0)) :
    busWrite 64 off v s = s.raise .busyWrite := by
  rcases hoff with rfl | rfl | rfl | ⟨hlo, hhi, h8⟩
  · exact (busWrite_cmd v s).trans (writeCmd_busy hb v)
  · exact (busWrite_bitcntLo v s).trans (writeHook_busy hb)
  · exact (busWrite_bitcntHi v s).trans (writeHook_busy hb)
  · by_cases hsalt : off < 0x0C0
    · obtain ⟨k, rfl⟩ := exists_word_of_range hlo hsalt (by omega)
      exact (busWrite_saltIn k v s).trans (writeStaging_busy hb)
    · obtain ⟨k, rfl⟩ := exists_word_of_range (Nat.not_lt.mp hsalt) hhi (by omega)
      exact (busWrite_dataIn k v s).trans (writeStaging_busy hb)

/-- Every completion clears BUSY, one that is turned away included (R141). -/
theorem exec_clears_busy {t : State} (h : exec i s = .next t) : t.busy = false := by
  rcases exec_cases i s with ⟨c, -, e⟩ | ⟨-, ⟨-, e⟩ | ⟨-, e⟩ | ⟨-, e⟩ | ⟨len, -, e⟩ | ⟨-, e⟩⟩ <;>
    (rw [e] at h; cases h; simp)

/-- An error recorded while a command is latched does not stop its completion (R216). -/
theorem engineTurn_raise_completes (hb : s.busy = true) (hi : latchedInstr s = some i) (c : ErrCode) :
    ∃ t, engineTurn (s.raise c) = .next t ∧ t.busy = false ∧ t.done = true := by
  obtain ⟨t, ht⟩ := exec_next i (s.raise c)
  have hi' : latchedInstr (s.raise c) = some i := by simpa [latchedInstr] using hi
  exact ⟨t, (engineTurn_of_latched ((State.raise_busy ..).trans hb) hi').trans ht, exec_clears_busy ht, exec_done ht⟩

/-- Settles O14: the dropped writes, and STATUS and CTRL, which do not look at BUSY. -/
theorem busyWritesAreDropped : Obligations.BusyWritesAreDropped := by
  intro s v hb
  refine ⟨fun off hoff => ?_, (busWrite_status v s).trans (clearFlags_eq s v), busWrite_ctrl v s⟩
  rw [busWrite_busy hb v hoff]
  exact ⟨rfl, fun i hi => engineTurn_raise_completes hb hi .busyWrite⟩

/-! ## The checks of a CMD write -/

/-- A CMD write of another width (R218, check 1). -/
theorem busWrite_cmd_width (hw : width ≠ 64) (v : Word) (s : State) : busWrite width 0 v s = s.raise .access :=
  busWrite_without_slot (by decide) (Reg.ofAccess_eq_none (.inl hw)) v s

/-- Settles O13: a rejection's frame, and `raise`, which leaves DONE. -/
theorem rejectedCommandFrame : Obligations.RejectedCommandFrame := by
  refine ⟨fun s v hb h => ?_, fun s width v h => ?_⟩
  · simp only [← reject_eq, busWrite_cmd]
    rcases h with ⟨e, hd⟩ | ⟨i, c, hd, ha⟩
    · exact ⟨.illegalCmd, writeCmd_of_decode_error hb hd⟩
    · exact ⟨c, writeCmd_of_not_admitted hb hd ha⟩
  · by_cases hw : width = 64
    · subst hw
      rw [busWrite_busy (h.resolve_left (absurd rfl)) v (.inl rfl), State.raise_done]
    · rw [busWrite_cmd_width hw, State.raise_done]

/-- An opcode that names no command is reserved (R93, R94). -/
theorem five_le_of_instrOfFields_none {op : BitVec 4} {len : BitVec 7} (h : instrOfFields op len = none) :
    5 ≤ op.toNat := by
  unfold instrOfFields at h
  split_ifs at h
  bv_omega

/-- The word is no command's: a reserved opcode, a set RSV0 or RSV1 bit, or a LEN without UPDATE (R94, R212). -/
def IllegalWord (w : Word) : Prop :=
  5 ≤ (opField w).toNat ∨ rsv0Field w ≠ 0 ∨ rsv1Field w ≠ 0 ∨ (opField w ≠ 3 ∧ lenField w ≠ 0)

theorem illegalWord_of_decode_error {e : DecodeError} (hd : decode v = .error e) : IllegalWord v :=
  (decode_error hd).imp_left five_le_of_instrOfFields_none

/-- A command's word is legal: its opcode is below 5, and only UPDATE's has a LEN (R93). -/
theorem not_illegalWord_encode (i : Instr) : ¬ IllegalWord (encode i) := by
  unfold IllegalWord
  rw [opField_encode, lenField_encode, rsv0Field_encode, rsv1Field_encode]
  cases i <;> simp [opcode, lenOf]

/-- Checks 4 and 5 of R218 on a decoded word, in terms of its fields. -/
theorem admission_of_decode (hd : decode v = .ok i) (l : LState) :
    admission i l =
      if opField v = 3 ∧ 64 < (lenField v).toNat then some .badLen
      else if (opField v = 3 ∨ opField v = 4) ∧ l ≠ .accumulating then some .invalidState
      else none := by
  rw [eq_encode_of_decode hd, opField_encode, lenField_encode]
  cases i <;> simp [admission, opcode, lenOf, Instr.lenLegal]

/-- Settles O9: an illegal word fails check 3; any other decodes to a command, whose admission is checks 4 and 5. -/
theorem cmdWriteCheckOrder : Obligations.CmdWriteCheckOrder := by
  refine fun s v => ⟨fun width hw => busWrite_cmd_width hw v s, ?_⟩
  rw [busWrite_cmd]
  cases hb : s.busy with
  | true => exact writeCmd_busy hb v
  | false =>
    rw [if_neg Bool.false_ne_true]
    cases hd : decode v with
    | error e => exact (writeCmd_of_decode_error hb hd).trans (if_pos (illegalWord_of_decode_error hd)).symm
    | ok i =>
      have hlegal : ¬ IllegalWord v := eq_encode_of_decode hd ▸ not_illegalWord_encode i
      have ha := admission_of_decode hd s.lstate
      refine Eq.trans ?_ (if_neg hlegal).symm
      split_ifs with hlen hstate
      · exact writeCmd_of_not_admitted hb hd (ha.trans (if_pos hlen))
      · exact writeCmd_of_not_admitted hb hd (ha.trans ((if_neg hlen).trans (if_pos hstate)))
      · exact writeCmd_of_admitted hb hd (ha.trans ((if_neg hlen).trans (if_neg hstate)))

end Sys2Proof.Machine
end

section
/-! Proofs of the family 70_reset_and_hazards: the values after reset and what the host reads then (R240), and
the platform's reset turn (R241). -/

namespace Sys2Proof.Machine

/-! ## What the host sees after reset -/

theorem statusIdle_reset : statusIdle State.reset = 0 := by decide

theorem busRead_status_reset (p : Params) : (busRead p 64 0x008 State.reset).1 = 0 :=
  calc (busRead p 64 0x008 State.reset).1
      = (readStatus State.reset).1 := congrArg Prod.fst (busRead_status p State.reset)
    _ = statusIdle State.reset := congrArg Prod.fst (readStatus_idle rfl)
    _ = 0 := statusIdle_reset

theorem ctrlWord_reset : ctrlWord State.reset = 0 := by decide

theorem busRead_ctrl_reset (p : Params) : (busRead p 64 0x010 State.reset).1 = 0 :=
  (congrArg Prod.fst (busRead_ctrl p State.reset)).trans ctrlWord_reset

/-- No digest is readable: reset leaves LSTATE at CREATED (R192). -/
theorem digestWord_reset (k : Fin 8) : digestWord State.reset k = 0 :=
  digestWord_not_finalized (by decide) k

theorem busRead_digest_reset (p : Params) (k : Fin 8) : (busRead p 64 (0x040 + 8 * k.val) State.reset).1 = 0 :=
  (congrArg Prod.fst (busRead_digest p k State.reset)).trans (digestWord_reset k)

theorem irq_reset : irq State.reset = false := by decide

/-- Settles O46: the fields are `State.reset`'s own, and what the host sees is said by the lemmas above. -/
theorem resetValues : Obligations.ResetValues :=
  ⟨rfl, rfl, rfl, rfl, rfl, rfl, rfl, rfl, rfl, rfl, rfl, rfl, rfl, rfl, rfl, rfl, rfl, rfl, rfl, rfl, rfl,
    irq_reset, fun p => ⟨busRead_status_reset p, busRead_ctrl_reset p, busRead_digest_reset p⟩⟩

/-! ## The reset turn -/

theorem nextTurn_of_cons {s : State} {t : Turn} {rest : List Turn} (h : s.turns = t :: rest) : nextTurn s = t := by
  simp [nextTurn, h]

theorem popTurn_of_cons {s : State} {t : Turn} {rest : List Turn} (h : s.turns = t :: rest) :
    s.popTurn = { s with turns := rest } := by
  simp [State.popTurn, h]

/-- Settles O47: the platform's move is `resetTurn`, which asks neither for BUSY nor for the latch. -/
theorem resetAbandonsCommand : Obligations.ResetAbandonsCommand := by
  intro s rest h
  rw [step_eq, nextTurn_of_cons h, popTurn_of_cons h]
  rfl

end Sys2Proof.Machine
end
